-- ==== Sys2Proof/Word.lean ====
section
/-! DEFINITION. The word types of the block (00_scope.md R6, R8, R12): a word is a bit vector of its width and a
byte is an 8-bit pattern, without a sign. -/

namespace Sys2Proof

/-- An 8-bit pattern (R12). -/
abbrev Byte := BitVec 8

/-- A 32-bit pattern (R8). Signedness is only a reading of the bits (R11). -/
abbrev Word32 := BitVec 32

/-- A 64-bit pattern (R8). -/
abbrev Word64 := BitVec 64

end Sys2Proof
end

