-- ==== Sys2Proof/Config.lean ====
section
/-! DEFINITION. The parameters of 00_scope.md R7. MAX_BYTES itself is OPEN: it is a field of State, so that every
statement about a state holds for every value of it; what stands here is its lower bound and the value State.reset
gives it (log 3). NUM_INSTANCES is OPEN too: it is the length of a platform's list of cores (Machine/Platform.lean). -/

namespace Sys2Proof.Config

/-- `LEN_BITS` of R7: the width of the command's LEN field. -/
abbrev lenBits : Nat := 32

/-- The least value R7 allows for `MAX_BYTES`. -/
abbrev minMaxBytes : Nat := 8

/-- DESIGN CHOICE (log 3), unsafe where a statement would rest on it (none does): the value of `MAX_BYTES` in
State.reset. 95_test_vectors.md part 2 takes 2^20 for its refusal vectors. -/
def resetMaxBytes : Nat := 2 ^ 20

end Sys2Proof.Config
end

