-- ==== Sys2Proof/Syntax.lean ====
section
/-! DEFINITION. The nineteen commands of 30_encoding.md R64, one constructor per row of the opcode map. A format-S
command has no field; a format-Q command carries LEN, an unsigned count (R61, R63). The operand words A and B and
the payload IN are no part of the command word: they stand in the command the core holds (10_state.md R23). -/

namespace Sys2Proof

/-- A decoded command word (R64). -/
inductive Instr where
  | makeBooleanW32
  | makeBooleanW64
  | extractLo
  | extractHi
  | makeLongHl
  | makeIntFold
  | makeByteArrayW32
  | makeByteArrayW64
  | makeByteArrayA32 (len : Nat)
  | makeByteArrayA64 (len : Nat)
  | makeIntBytes (len : Nat)
  | makeLongBytes (len : Nat)
  | makeIntArray (len : Nat)
  | makeLongArray (len : Nat)
  | makeDoubleW64
  | makeDoubleW32x2
  | makeFloatW32
  | makeDoubleOpenW64
  | makeDoubleOpenW32x2
  deriving DecidableEq, Repr

/-- The two formats of R63. -/
inductive Format where
  | S
  | Q
  deriving DecidableEq, Repr

end Sys2Proof
end

