-- ==== Sys2Proof/WellFormed.lean ====
section
/-! DEFINITION. When a term of `Instr` is a command the word can carry: its LEN fits the 32-bit field
(30_encoding.md R61), and LEN is 0 for format S (R63), which the constructors already say. -/

namespace Sys2Proof

/-- The LEN field of the command (R61, R63): 0 for format S. -/
def Instr.len : Instr → Nat
  | .makeBooleanW32 => 0
  | .makeBooleanW64 => 0
  | .extractLo => 0
  | .extractHi => 0
  | .makeLongHl => 0
  | .makeIntFold => 0
  | .makeByteArrayW32 => 0
  | .makeByteArrayW64 => 0
  | .makeByteArrayA32 len => len
  | .makeByteArrayA64 len => len
  | .makeIntBytes len => len
  | .makeLongBytes len => len
  | .makeIntArray len => len
  | .makeLongArray len => len
  | .makeDoubleW64 => 0
  | .makeDoubleW32x2 => 0
  | .makeFloatW32 => 0
  | .makeDoubleOpenW64 => 0
  | .makeDoubleOpenW32x2 => 0

/-- LEN fits its 32-bit field (R61). -/
abbrev Instr.WellFormed (i : Instr) : Prop := i.len < 2 ^ Config.lenBits

end Sys2Proof
end

