-- ==== Sys2Proof/Decode.lean ====
section
/-! DEFINITION. The command word's fields (30_encoding.md R60), the decoder (R69), total on the 2^64 command words and
rejecting by name the three classes of R72, and after it the encoder. The command word is presented whole and never
byte-serialised (20_memory.md R45; 92_eei_decisions.md D22). -/

namespace Sys2Proof

/-- `OPC = CMD[7:0] = {UNIT, FN}` (R60). -/
def cmdOpc (cmd : Word64) : BitVec 8 := cmd.extractLsb' 0 8

/-- `FN = CMD[3:0]` (R60). -/
def cmdFn (cmd : Word64) : BitVec 4 := cmd.extractLsb' 0 4

/-- `UNIT = CMD[7:4]` (R60). -/
def cmdUnit (cmd : Word64) : BitVec 4 := cmd.extractLsb' 4 4

/-- `RSVD = CMD[31:8]` (R60). -/
def cmdRsvd (cmd : Word64) : BitVec 24 := cmd.extractLsb' 8 24

/-- `LEN = CMD[63:32]`, an unsigned number (R60, R61). -/
def cmdLen (cmd : Word64) : Nat := (cmd.extractLsb' 32 32).toNat

/-- Why a command word is reserved: the three classes of R72. -/
inductive Reserved where
  /-- class 1: `RSVD != 0` -/
  | rsvdNonzero
  /-- class 2: an OPC that is no row of R64 -/
  | unassignedOpcode
  /-- class 3: a format-S OPC with `LEN != 0` -/
  | scalarLenNonzero
  deriving DecidableEq, Repr

/-- The decoder's answer (R69): an operation or Reserved. -/
inductive Decoded where
  | op (i : Instr)
  | reserved (why : Reserved)
  deriving DecidableEq, Repr

/-- The format-S rows of R64. -/
def scalarRow (opc : BitVec 8) : Option Instr :=
  match opc with
  | 0x00#8 => some .makeBooleanW32
  | 0x01#8 => some .makeBooleanW64
  | 0x10#8 => some .extractLo
  | 0x11#8 => some .extractHi
  | 0x12#8 => some .makeLongHl
  | 0x13#8 => some .makeIntFold
  | 0x20#8 => some .makeByteArrayW32
  | 0x21#8 => some .makeByteArrayW64
  | 0x40#8 => some .makeDoubleW64
  | 0x41#8 => some .makeDoubleW32x2
  | 0x42#8 => some .makeFloatW32
  | 0x50#8 => some .makeDoubleOpenW64
  | 0x51#8 => some .makeDoubleOpenW32x2
  | _ => none

/-- The format-Q rows of R64. -/
def sequenceRow (opc : BitVec 8) (len : Nat) : Option Instr :=
  match opc with
  | 0x22#8 => some (.makeByteArrayA32 len)
  | 0x23#8 => some (.makeByteArrayA64 len)
  | 0x30#8 => some (.makeIntBytes len)
  | 0x31#8 => some (.makeLongBytes len)
  | 0x32#8 => some (.makeIntArray len)
  | 0x33#8 => some (.makeLongArray len)
  | _ => none

/-- `decode` of R69. -/
def decode (cmd : Word64) : Decoded :=
  if cmdRsvd cmd ≠ 0#24 then .reserved .rsvdNonzero
  else
    match sequenceRow (cmdOpc cmd) (cmdLen cmd), scalarRow (cmdOpc cmd) with
    | some i, _ => .op i
    | none, some i => if cmdLen cmd ≠ 0 then .reserved .scalarLenNonzero else .op i
    | none, none => .reserved .unassignedOpcode

/-- The OPC column of R64. -/
def Instr.opc : Instr → BitVec 8
  | .makeBooleanW32 => 0x00#8
  | .makeBooleanW64 => 0x01#8
  | .extractLo => 0x10#8
  | .extractHi => 0x11#8
  | .makeLongHl => 0x12#8
  | .makeIntFold => 0x13#8
  | .makeByteArrayW32 => 0x20#8
  | .makeByteArrayW64 => 0x21#8
  | .makeByteArrayA32 _ => 0x22#8
  | .makeByteArrayA64 _ => 0x23#8
  | .makeIntBytes _ => 0x30#8
  | .makeLongBytes _ => 0x31#8
  | .makeIntArray _ => 0x32#8
  | .makeLongArray _ => 0x33#8
  | .makeDoubleW64 => 0x40#8
  | .makeDoubleW32x2 => 0x41#8
  | .makeFloatW32 => 0x42#8
  | .makeDoubleOpenW64 => 0x50#8
  | .makeDoubleOpenW32x2 => 0x51#8

/-- The format column of R64. -/
def Instr.format : Instr → Format
  | .makeBooleanW32 => .S
  | .makeBooleanW64 => .S
  | .extractLo => .S
  | .extractHi => .S
  | .makeLongHl => .S
  | .makeIntFold => .S
  | .makeByteArrayW32 => .S
  | .makeByteArrayW64 => .S
  | .makeByteArrayA32 _ => .Q
  | .makeByteArrayA64 _ => .Q
  | .makeIntBytes _ => .Q
  | .makeLongBytes _ => .Q
  | .makeIntArray _ => .Q
  | .makeLongArray _ => .Q
  | .makeDoubleW64 => .S
  | .makeDoubleW32x2 => .S
  | .makeFloatW32 => .S
  | .makeDoubleOpenW64 => .S
  | .makeDoubleOpenW32x2 => .S

/-- The assembled command word `{LEN[31:0], 0x000000, OPC}` (R73, from R60 and R64). -/
def encode (i : Instr) : Word64 := BitVec.ofNat Config.lenBits i.len ++ 0#24 ++ i.opc

/-- The command word whose bits 0 to nbits - 1 are those of w and whose other bits are 0. -/
def tableCommand (nbits w : Nat) : Word64 := BitVec.ofNat 64 (w % 2 ^ nbits)

/-- What the decoder reads from a word numbered as spec/opcode_table.json numbers it: CMD's own numbering (R60). A
word longer than 64 bits is no command word. -/
def decodeTableWord (nbits w : Nat) : Option Instr :=
  if w % 2 ^ nbits < 2 ^ 64 then
    match decode (tableCommand nbits w) with
    | .op i => some i
    | .reserved _ => none
  else none

end Sys2Proof
end

