-- ==== Sys2Proof/Machine/State.lean ====
section
/-! DEFINITION. The state of one core (10_state.md R25, R26), the command and the response it can hold (R23, R24), the
host's moves still to come and the responses the host has taken (R22, R27 to R30; 70_reset_and_hazards.md R236), and
the machine's start (R33). All of it is plain data. -/

namespace Sys2Proof.Machine

/-- A payload IN or OUT (20_memory.md R40): the empty sequence, a byte sequence, a Word32 sequence or a Word64
sequence. `[]` is one value whatever its kind (log 4): what reads a payload takes an empty list of any kind as the
empty sequence, and what the machine writes is `.empty` for it. -/
inductive Payload where
  | empty
  | bytes (bs : List Byte)
  | words32 (ws : List Word32)
  | words64 (ws : List Word64)
  deriving DecidableEq, Repr

/-- A command (R23): the command word, the two operand words and the input payload. -/
structure Command where
  cmd   : Word64
  a     : Word64
  b     : Word64
  input : Payload
  deriving DecidableEq, Repr

/-- The one error kind (60_exceptions.md R210, R211). -/
inductive ErrorKind where
  | invalidLength
  deriving DecidableEq, Repr

/-- A response (R24). With STATUS = 0 it carries RES and OUT; with STATUS = 1 it carries no result at all
(R213, `Err InvalidLength`; log 7). -/
inductive Response where
  | ok (res : Word64) (out : Payload)
  | err (kind : ErrorKind)
  deriving DecidableEq, Repr

/-- The handshake phase (R25). -/
inductive Phase where
  | idle
  | busy (c : Command)
  | done (r : Response)
  | refused
  deriving DecidableEq, Repr

/-- A move of the schedule: the host's Issue and Take (R27, R29), the core's Execute (R28), and the external event
Reset (R30). -/
inductive Move where
  | issue (c : Command)
  | execute
  | take
  | reset
  deriving DecidableEq, Repr

/-- One core and what stands around it. `phase` and `refusedMark` are the core's whole state (R25, R26). `maxBytes`
is the parameter MAX_BYTES (00_scope.md R7; log 3): no step writes it. `schedule` is the moves to come, oldest first,
which says who moves next where the spec leaves it to the agents (log 1). `taken` is what the host has observed, oldest
first (R34, 70_reset_and_hazards.md R236), and `awaiting` says that the host has not taken the response of the command
it issued last (R236; log 22). -/
structure State where
  phase       : Phase
  refusedMark : Bool
  maxBytes    : Nat
  schedule    : List Move
  taken       : List Response
  awaiting    : Bool
  deriving DecidableEq, Repr

/-- Why the machine stops with a fault. -/
inductive Fault where
  /-- Raised by a meaning run in a state that holds no command, where Execute is not enabled (R28). No step of the
  machine does that. Safe: the model stops where the spec has no step (log 6). -/
  | noCommandHeld
  deriving DecidableEq, Repr

/-- Why the machine gives an instruction no meaning. -/
inductive Refusal where
  /-- Raised by an arm of exec whose instruction is not modelled yet; no arm does. Safe: nothing can be proved of it. -/
  | notModelled (mnemonic : String)
  deriving DecidableEq, Repr

/-- The outcome of a step or of a meaning. -/
abbrev Result := Host.Outcome State Fault Refusal

/-- The model's start (R33): Idle, nothing held, REFUSED false. The other four fields are the model's own: MAX_BYTES
as log 3 says, no move scheduled, no response taken (log 1) and none awaited (log 22). -/
def State.reset : State where
  phase := .idle
  refusedMark := false
  maxBytes := Config.resetMaxBytes
  schedule := []
  taken := []
  awaiting := false

end Sys2Proof.Machine
end

