-- ==== Sys2Proof/Machine/Operands.lean ====
section
/-! DEFINITION. Operand forms and result forms (30_encoding.md R67, R68), and the reading, making and admission of
payloads (20_memory.md R40, R46, R47). -/

namespace Sys2Proof.Machine

/-! ### Operand words (R67) -/

/-- `A` (R13, R67): the whole first operand word. -/
def Command.opA (c : Command) : Word64 := c.a

/-- `A32 = A[31:0]` (R13, R67). -/
def Command.opA32 (c : Command) : Word32 := c.a.extractLsb' 0 32

/-- `B32 = B[31:0]` (R13, R67). -/
def Command.opB32 (c : Command) : Word32 := c.b.extractLsb' 0 32

/-! ### Payloads (R40). The empty sequence is of every kind. -/

/-- `len(s)` (R12), in elements. -/
def Payload.length : Payload → Nat
  | .empty => 0
  | .bytes bs => bs.length
  | .words32 ws => ws.length
  | .words64 ws => ws.length

/-- The byte size of a payload (R47, R49). -/
def Payload.byteSize : Payload → Nat
  | .empty => 0
  | .bytes bs => bs.length
  | .words32 ws => 4 * ws.length
  | .words64 ws => 8 * ws.length

/-- The elements of a byte sequence. -/
def Payload.byteList : Payload → List Byte
  | .bytes bs => bs
  | .empty => []
  | .words32 _ => []
  | .words64 _ => []

/-- The elements of a Word32 sequence. -/
def Payload.word32List : Payload → List Word32
  | .words32 ws => ws
  | .empty => []
  | .bytes _ => []
  | .words64 _ => []

/-- The elements of a Word64 sequence. -/
def Payload.word64List : Payload → List Word64
  | .words64 ws => ws
  | .empty => []
  | .bytes _ => []
  | .words32 _ => []

/-- The byte sequence `bs`, as the machine writes it: `[]` is `.empty`. -/
def Payload.ofBytes (bs : List Byte) : Payload := if bs.isEmpty then .empty else .bytes bs

/-- The Word32 sequence `ws`, as the machine writes it. -/
def Payload.ofWords32 (ws : List Word32) : Payload := if ws.isEmpty then .empty else .words32 ws

/-- The Word64 sequence `ws`, as the machine writes it. -/
def Payload.ofWords64 (ws : List Word64) : Payload := if ws.isEmpty then .empty else .words64 ws

/-- The payload is `n` bytes: a byte sequence of length `n`, or `[]` when `n = 0`. -/
def Payload.isBytes (n : Nat) (p : Payload) : Bool := p.length == n && p.byteList.length == n

/-- The payload is `n` Word32. -/
def Payload.isWords32 (n : Nat) (p : Payload) : Bool := p.length == n && p.word32List.length == n

/-- The payload is `n` Word64. -/
def Payload.isWords64 (n : Nat) (p : Payload) : Bool := p.length == n && p.word64List.length == n

/-- The payload is the one form the machine writes for its sequence. -/
def Payload.canonical : Payload → Bool
  | .empty => true
  | .bytes bs => !bs.isEmpty
  | .words32 ws => !ws.isEmpty
  | .words64 ws => !ws.isEmpty

/-! ### Admission (R46, R47) -/

/-- `payload_matches` of R70: IN is of the kind R40 names for the opcode and its length is LEN (R46). -/
def payloadMatches (i : Instr) (p : Payload) : Bool :=
  match i with
  | .makeBooleanW32 => p.length == 0
  | .makeBooleanW64 => p.length == 0
  | .extractLo => p.length == 0
  | .extractHi => p.length == 0
  | .makeLongHl => p.length == 0
  | .makeIntFold => p.length == 0
  | .makeByteArrayW32 => p.length == 0
  | .makeByteArrayW64 => p.length == 0
  | .makeByteArrayA32 len => p.isWords32 len
  | .makeByteArrayA64 len => p.isWords64 len
  | .makeIntBytes len => p.isBytes len
  | .makeLongBytes len => p.isBytes len
  | .makeIntArray len => p.isBytes len
  | .makeLongArray len => p.isBytes len
  | .makeDoubleW64 => p.length == 0
  | .makeDoubleW32x2 => p.length == 0
  | .makeFloatW32 => p.length == 0
  | .makeDoubleOpenW64 => p.length == 0
  | .makeDoubleOpenW32x2 => p.length == 0

/-- The byte size R47 holds against MAX_BYTES: the output of 0x22 and 0x23, the input of 0x30 to 0x33. R47 names no
size for the other opcodes; the 4 and 8 bytes of 0x20 and 0x21 are within every MAX_BYTES that R7 allows (log 9). -/
def boundedBytes : Instr → Nat
  | .makeBooleanW32 => 0
  | .makeBooleanW64 => 0
  | .extractLo => 0
  | .extractHi => 0
  | .makeLongHl => 0
  | .makeIntFold => 0
  | .makeByteArrayW32 => 0
  | .makeByteArrayW64 => 0
  | .makeByteArrayA32 len => 4 * len
  | .makeByteArrayA64 len => 8 * len
  | .makeIntBytes len => len
  | .makeLongBytes len => len
  | .makeIntArray len => len
  | .makeLongArray len => len
  | .makeDoubleW64 => 0
  | .makeDoubleW32x2 => 0
  | .makeFloatW32 => 0
  | .makeDoubleOpenW64 => 0
  | .makeDoubleOpenW32x2 => 0

/-- `over_max_bytes` of R70 (R47). -/
def overMaxBytes (i : Instr) (maxBytes : Nat) : Bool := decide (maxBytes < boundedBytes i)

/-! ### Result forms on RES (R68) -/

/-- BOOL: `zext_64(b)`. -/
def resBool (b : Bool) : Word64 := (BitVec.ofBool b).setWidth 64

/-- W32 and F32: `zext_64(w)`; the upper 32 bits are 0, never a sign extension. -/
def resWord32 (w : Word32) : Word64 := w.setWidth 64

end Sys2Proof.Machine
end

