-- ==== Sys2Proof/Machine/Flags.lean ====
section
/-! DEFINITION. STATUS, the block's only condition code (10_state.md R32; 60_exceptions.md R210), and the response as
its three fields (10_state.md R24). There is no flag the block keeps (R21). -/

namespace Sys2Proof.Machine

/-- STATUS 0 (R210). -/
def statusOk : BitVec 8 := 0#8

/-- STATUS 1 (R210). -/
def statusInvalidLength : BitVec 8 := 1#8

/-- The STATUS field of a response (R24, R210). -/
def Response.status : Response → BitVec 8
  | .ok _ _ => statusOk
  | .err .invalidLength => statusInvalidLength

/-- The result a response carries: RES and OUT, and none with an error (R24, R213). -/
def Response.result? : Response → Option (Word64 × Payload)
  | .ok res out => some (res, out)
  | .err _ => none

/-- The three fields as the hardware drives them at Take (R24). No claim may rest on `res` and `out` where STATUS is
not 0 (R213; 93_implementation_defined.md I4; log 7). -/
def Response.pins (r : Response) : BitVec 8 × Word64 × Payload :=
  match r.result? with
  | some (res, out) => (r.status, res, out)
  | none => (r.status, 0#64, .empty)

/-- What the response port offers: a response in Done and in no other phase (R29, R33). While none is offered the pins
are unspecified, so there is no value to read (93_implementation_defined.md I5; log 8). -/
def State.offered (s : State) : Option Response :=
  match s.phase with
  | .done r => some r
  | .idle => none
  | .busy _ => none
  | .refused => none

end Sys2Proof.Machine
end

