-- ==== Sys2Proof/Machine/Ops.lean ====
section
/-! DEFINITION. The operations every meaning is made of: what Execute does to the phase (10_state.md R28), admission of
a command (30_encoding.md R70), raising the one error (60_exceptions.md R213), and the host's Issue and Take and the
Reset event (10_state.md R27, R29, R30). There is no trap entry and no trap return on this hardware (60_exceptions.md
R218, R219): an error is a response, and Take is what ends it. -/

namespace Sys2Proof.Machine

/-- `phase <- Busy(c)`. -/
def State.hold (s : State) (c : Command) : State := { s with phase := .busy c }

/-- `phase <- Done(r)` (R28). -/
def State.respond (s : State) (r : Response) : State := { s with phase := .done r }

/-- `REFUSED <- true; phase <- Refused` (R26, R28; log 5). -/
def State.refuse (s : State) : State := { s with phase := .refused, refusedMark := true }

/-- The command completes (STATUS = 0) with RES and OUT (R13, R68). -/
def complete (s : State) (res : Word64) (out : Payload) : Result := .next (s.respond (.ok res out))

/-- The command completes with a scalar on RES and OUT = [] (R68). -/
def completeRes (s : State) (res : Word64) : Result := complete s res .empty

/-- The command completes with a sequence on OUT and RES = 0 (R68). -/
def completeOut (s : State) (out : Payload) : Result := complete s 0#64 out

/-- `raise InvalidLength()` (60_exceptions.md R213): the response is the error, and that is the whole effect (R218). -/
def raiseInvalidLength (s : State) : Result := .next (s.respond (.err .invalidLength))

/-- The model gives the command no meaning (R26, R28). -/
def refuse (s : State) : Result := .next s.refuse

/-- The checks of R70 that stand before an operation's own rule, in its order: payload agreement (R46), then the
MAX_BYTES bound (R47), then the rule, given the held command. Execute is enabled only in Busy (R28; log 6). -/
def whenAdmitted (i : Instr) (s : State) (rule : Command → Result) : Result :=
  match s.phase with
  | .busy c =>
    if payloadMatches i c.input then
      if overMaxBytes i s.maxBytes then refuse s else rule c
    else refuse s
  | .idle => .fault .noCommandHeld
  | .done _ => .fault .noCommandHeld
  | .refused => .fault .noCommandHeld

/-- Reset (R30, R230): Idle, whatever was held is dropped, REFUSED keeps its value. The response of a dropped command
is never taken, so the host still awaits it (log 22). -/
def State.resetEvent (s : State) : State := { s with phase := .idle }

/-- What an Issue does (R27): the core captures the command whole, and the host awaits its response (log 22). -/
def State.capture (s : State) (c : Command) : State := { s with phase := .busy c, awaiting := true }

/-- What a Take does (R29): the host receives the response whole, and the phase is Idle. -/
def State.handOver (s : State) (r : Response) : State :=
  { s with phase := .idle, taken := s.taken ++ [r], awaiting := false }

/-- Issue (R27): in Idle the core captures the command; in any other phase the host has no such step. -/
def State.issue? (s : State) (c : Command) : Option State :=
  match s.phase with
  | .idle => some (s.capture c)
  | .busy _ => none
  | .done _ => none
  | .refused => none

/-- Take (R29): in Done the host receives the response; in any other phase it has no such step. -/
def State.take? (s : State) : Option State :=
  match s.phase with
  | .done r => some (s.handOver r)
  | .idle => none
  | .busy _ => none
  | .refused => none

end Sys2Proof.Machine
end

