-- ==== Sys2Proof/Machine/BitPredicate.lean ====
section
/-! DEFINITION. Sub-unit 0, bit_sign_extractor (40_bit_sign_extractor.md). -/

namespace Sys2Proof.Machine

/-- 0x00 `makeBoolean.w32` (R100): bit 31 of A. -/
def execMakeBooleanW32 (s : State) : Result :=
  whenAdmitted .makeBooleanW32 s fun c => completeRes s (resBool (c.opA32.getLsbD 31))

/-- 0x01 `makeBoolean.w64` (R101): bit 63 of A. -/
def execMakeBooleanW64 (s : State) : Result :=
  whenAdmitted .makeBooleanW64 s fun c => completeRes s (resBool (c.opA.getLsbD 63))

end Sys2Proof.Machine
end

