-- ==== Sys2Proof/Machine/Ieee.lean ====
section
/-! DEFINITION. IEEE-754 bit patterns as the block makes them (00_scope.md R14 to R18). The layouts, the biases and
the value formula are the spec's general knowledge (93_implementation_defined.md G1, G3 to G6; log 10). -/

namespace Sys2Proof.Machine

/-- `Bin64Exact(m, k)` (R15): the binary64 pattern of m × 2^−k. -/
def bin64Exact (m k : Nat) : Word64 :=
  if m = 0 then 0#64
  else 0#1 ++ BitVec.ofNat 11 (1023 + m.log2 - k) ++ BitVec.ofNat 52 ((m - 2 ^ m.log2) <<< (52 - m.log2))

/-- `Bin32Exact(m, k)` (R16): the binary32 pattern of m × 2^−k. -/
def bin32Exact (m k : Nat) : Word32 :=
  if m = 0 then 0#32
  else 0#1 ++ BitVec.ofNat 8 (127 + m.log2 - k) ++ BitVec.ofNat 23 ((m - 2 ^ m.log2) <<< (23 - m.log2))

/-- The binary64 pattern of 1.0 (R14). -/
def f64One : Word64 := 0x3FF0000000000000#64

/-- `F64Sub(x, 1.0)` for x in [1, 2), the one use of F64Sub in this block (R18). Such an x is 1 + fraction × 2^−52
(R14), so the exact difference is fraction × 2^−52 (R192; log 11). -/
def f64SubOne (x : Word64) : Word64 := bin64Exact (x.extractLsb' 0 52).toNat 52

/-- The number a binary64 pattern stands for (R14): a normal number or a zero. R14 gives no formula for a subnormal,
an infinity or a NaN, and no result of this block is one: none. -/
def f64Value (d : Word64) : Option ℚ :=
  let sign : ℚ := if d.getLsbD 63 then -1 else 1
  let exponent : Nat := (d.extractLsb' 52 11).toNat
  let fraction : Nat := (d.extractLsb' 0 52).toNat
  if exponent = 0 then (if fraction = 0 then some 0 else none)
  else if exponent = 2047 then none
  else some (sign * (1 + fraction / 2 ^ 52) * (2 : ℚ) ^ ((exponent : ℤ) - 1023))

/-- The number a binary32 pattern stands for (R16, by the formula of R14 with bias 127). -/
def f32Value (f : Word32) : Option ℚ :=
  let sign : ℚ := if f.getLsbD 31 then -1 else 1
  let exponent : Nat := (f.extractLsb' 23 8).toNat
  let fraction : Nat := (f.extractLsb' 0 23).toNat
  if exponent = 0 then (if fraction = 0 then some 0 else none)
  else if exponent = 255 then none
  else some (sign * (1 + fraction / 2 ^ 23) * (2 : ℚ) ^ ((exponent : ℤ) - 127))

/-- `d` is the exact IEEE-754 difference of the numbers `x` and `y` (R18). -/
def IsF64Difference (x y d : Word64) : Prop :=
  ∃ vx vy : ℚ, f64Value x = some vx ∧ f64Value y = some vy ∧ f64Value d = some (vx - vy)

end Sys2Proof.Machine
end

