-- ==== Sys2Proof/Machine/WordAlgebra.lean ====
section
/-! DEFINITION. Sub-unit 1, word32_word64_splitter_joiner (41_word32_word64_splitter_joiner.md). Every shift is logical
(R115). -/

namespace Sys2Proof.Machine

/-- The low half of a Word64 (R110). -/
def loHalf (v : Word64) : Word32 := v.extractLsb' 0 32

/-- The high half of a Word64 (R111). -/
def hiHalf (v : Word64) : Word32 := v.extractLsb' 32 32

/-- Join two halves, as R112 writes it: hi shifted up, lo masked to 32 bits, combined by OR. -/
def joinHalves (hi lo : Word32) : Word64 :=
  (hi.setWidth 64 <<< 32) ||| (lo.setWidth 64 &&& 0x00000000FFFFFFFF#64)

/-- 0x10 `extractLo` (R110). -/
def execExtractLo (s : State) : Result :=
  whenAdmitted .extractLo s fun c => completeRes s (resWord32 (loHalf c.opA))

/-- 0x11 `extractHi` (R111). -/
def execExtractHi (s : State) : Result :=
  whenAdmitted .extractHi s fun c => completeRes s (resWord32 (hiHalf c.opA))

/-- 0x12 `makeLong.hl` (R112): A32 is hi and B32 is lo. -/
def execMakeLongHl (s : State) : Result :=
  whenAdmitted .makeLongHl s fun c => completeRes s (joinHalves c.opA32 c.opB32)

/-- 0x13 `makeInt.fold` (R113). -/
def execMakeIntFold (s : State) : Result :=
  whenAdmitted .makeIntFold s fun c => completeRes s (resWord32 (loHalf c.opA ^^^ hiHalf c.opA))

end Sys2Proof.Machine
end

