-- ==== Sys2Proof/Machine/OpenUnitFloat.lean ====
section
/-! DEFINITION. Sub-unit 5, ieee754_open_unit_float_constructor (45_ieee754_open_unit_float_constructor.md): the bit
construction and the subtraction of 1.0, never the alternative scaling formula (R193). -/

namespace Sys2Proof.Machine

/-- `f` of R190: the top 52 bits with the least significant bit forced to 1. -/
def openFraction (v : Word64) : Word64 := (v >>> 12) ||| 0x0000000000000001#64

/-- `X` of R190: the exponent field of 1.0 with the fraction f. -/
def openPattern (v : Word64) : Word64 := f64One ||| openFraction v

/-- 0x50 `makeDoubleOpen.w64` (R190). -/
def execMakeDoubleOpenW64 (s : State) : Result :=
  whenAdmitted .makeDoubleOpenW64 s fun c => completeRes s (f64SubOne (openPattern c.opA))

/-- 0x51 `makeDoubleOpen.w32x2` (R191): the same construction on A32 (hi) joined with B32 (lo). -/
def execMakeDoubleOpenW32x2 (s : State) : Result :=
  whenAdmitted .makeDoubleOpenW32x2 s fun c => completeRes s (f64SubOne (openPattern (joinHalves c.opA32 c.opB32)))

end Sys2Proof.Machine
end

