-- ==== Sys2Proof/Machine/Bytes.lean ====
section
/-! DEFINITION. The little-endian byte order of words and word arrays (20_memory.md R41 to R43). -/

namespace Sys2Proof.Machine

/-- `LE4(w)` (R41): byte 0 is the least significant. -/
def le4 (w : Word32) : List Byte :=
  [w.extractLsb' 0 8, w.extractLsb' 8 8, w.extractLsb' 16 8, w.extractLsb' 24 8]

/-- `LE8(w)` (R41). -/
def le8 (w : Word64) : List Byte :=
  [w.extractLsb' 0 8, w.extractLsb' 8 8, w.extractLsb' 16 8, w.extractLsb' 24 8,
   w.extractLsb' 32 8, w.extractLsb' 40 8, w.extractLsb' 48 8, w.extractLsb' 56 8]

/-- `LESeq4(ws)` (R42): each word's bytes, in array order. -/
def leSeq4 (ws : List Word32) : List Byte := ws.flatMap le4

/-- `LESeq8(ws)` (R42). -/
def leSeq8 (ws : List Word64) : List Byte := ws.flatMap le8

/-- `FromLE4([b0, b1, b2, b3])` (R43). -/
def fromLE4 (b0 b1 b2 b3 : Byte) : Word32 := b3 ++ b2 ++ b1 ++ b0

/-- `FromLE8([b0, ..., b7])` (R43). -/
def fromLE8 (b0 b1 b2 b3 b4 b5 b6 b7 : Byte) : Word64 := b7 ++ b6 ++ b5 ++ b4 ++ b3 ++ b2 ++ b1 ++ b0

/-- The Word32 of a byte sequence: `FromLE4(b)`, which R43 gives for exactly 4 bytes. -/
def parseWord32 : List Byte → Option Word32
  | [b0, b1, b2, b3] => some (fromLE4 b0 b1 b2 b3)
  | _ => none

/-- The Word64 of a byte sequence: `FromLE8(b)`, which R43 gives for exactly 8 bytes. -/
def parseWord64 : List Byte → Option Word64
  | [b0, b1, b2, b3, b4, b5, b6, b7] => some (fromLE8 b0 b1 b2 b3 b4 b5 b6 b7)
  | _ => none

/-- The Word32 array of a byte sequence (R43): its whole groups of 4 bytes, in index order. -/
def parseSeq4 : List Byte → List Word32
  | b0 :: b1 :: b2 :: b3 :: rest => fromLE4 b0 b1 b2 b3 :: parseSeq4 rest
  | _ => []

/-- The Word64 array of a byte sequence (R43): its whole groups of 8 bytes, in index order. -/
def parseSeq8 : List Byte → List Word64
  | b0 :: b1 :: b2 :: b3 :: b4 :: b5 :: b6 :: b7 :: rest => fromLE8 b0 b1 b2 b3 b4 b5 b6 b7 :: parseSeq8 rest
  | _ => []

end Sys2Proof.Machine
end

