-- ==== Sys2Proof/Machine/Parse.lean ====
section
/-! DEFINITION. Sub-unit 3, bytes_to_le_word (43_bytes_to_le_word.md). L is LEN, which is the length of IN once the
command is admitted (20_memory.md R46). -/

namespace Sys2Proof.Machine

/-- 0x30 `makeInt.bytes` (R150): exactly 4 bytes, or invalid-length. -/
def execMakeIntBytes (len : Nat) (s : State) : Result :=
  whenAdmitted (.makeIntBytes len) s fun c =>
    match parseWord32 c.input.byteList with
    | some w => completeRes s (resWord32 w)
    | none => raiseInvalidLength s

/-- 0x31 `makeLong.bytes` (R151): exactly 8 bytes, or invalid-length. -/
def execMakeLongBytes (len : Nat) (s : State) : Result :=
  whenAdmitted (.makeLongBytes len) s fun c =>
    match parseWord64 c.input.byteList with
    | some w => completeRes s w
    | none => raiseInvalidLength s

/-- 0x32 `makeIntArray` (R152): a multiple of 4 bytes, 0 included, or invalid-length; no partial array. -/
def execMakeIntArray (len : Nat) (s : State) : Result :=
  whenAdmitted (.makeIntArray len) s fun c =>
    if len % 4 ≠ 0 then raiseInvalidLength s else completeOut s (.ofWords32 (parseSeq4 c.input.byteList))

/-- 0x33 `makeLongArray` (R153): a multiple of 8 bytes, 0 included, or invalid-length; no partial array. -/
def execMakeLongArray (len : Nat) (s : State) : Result :=
  whenAdmitted (.makeLongArray len) s fun c =>
    if len % 8 ≠ 0 then raiseInvalidLength s else completeOut s (.ofWords64 (parseSeq8 c.input.byteList))

end Sys2Proof.Machine
end

