-- ==== Sys2Proof/Machine/Serialise.lean ====
section
/-! DEFINITION. Sub-unit 2, word_to_le_bytes (42_word_to_le_bytes.md). -/

namespace Sys2Proof.Machine

/-- 0x20 `makeByteArray.w32` (R130). -/
def execMakeByteArrayW32 (s : State) : Result :=
  whenAdmitted .makeByteArrayW32 s fun c => completeOut s (.ofBytes (le4 c.opA32))

/-- 0x21 `makeByteArray.w64` (R131). -/
def execMakeByteArrayW64 (s : State) : Result :=
  whenAdmitted .makeByteArrayW64 s fun c => completeOut s (.ofBytes (le8 c.opA))

/-- 0x22 `makeByteArray.a32` (R132). -/
def execMakeByteArrayA32 (len : Nat) (s : State) : Result :=
  whenAdmitted (.makeByteArrayA32 len) s fun c => completeOut s (.ofBytes (leSeq4 c.input.word32List))

/-- 0x23 `makeByteArray.a64` (R133). -/
def execMakeByteArrayA64 (len : Nat) (s : State) : Result :=
  whenAdmitted (.makeByteArrayA64 len) s fun c => completeOut s (.ofBytes (leSeq8 c.input.word64List))

end Sys2Proof.Machine
end

