-- ==== Sys2Proof/Machine/UnitFloat.lean ====
section
/-! DEFINITION. Sub-unit 4, ieee754_unit_float_constructor (44_ieee754_unit_float_constructor.md). -/

namespace Sys2Proof.Machine

/-- The 53-bit m of R171: hi's top 26 bits above lo's top 27 bits (92_eei_decisions.md D16). -/
def joinTop53 (hi lo : Word32) : Word64 :=
  ((hi >>> 6).setWidth 64 <<< 27) ||| (lo >>> 5).setWidth 64

/-- 0x40 `makeDouble.w64` (R170). -/
def execMakeDoubleW64 (s : State) : Result :=
  whenAdmitted .makeDoubleW64 s fun c => completeRes s (bin64Exact (c.opA >>> 11).toNat 53)

/-- 0x41 `makeDouble.w32x2` (R171): A32 is hi and B32 is lo. -/
def execMakeDoubleW32x2 (s : State) : Result :=
  whenAdmitted .makeDoubleW32x2 s fun c => completeRes s (bin64Exact (joinTop53 c.opA32 c.opB32).toNat 53)

/-- 0x42 `makeFloat.w32` (R172). -/
def execMakeFloatW32 (s : State) : Result :=
  whenAdmitted .makeFloatW32 s fun c => completeRes s (resWord32 (bin32Exact (c.opA32 >>> 8).toNat 24))

end Sys2Proof.Machine
end

