-- ==== Sys2Proof/Machine/Dispatch.lean ====
section
/-! DEFINITION. The operation's rule of 30_encoding.md R70: one arm per row of R64. -/

namespace Sys2Proof.Machine

def exec (i : Instr) (s : State) : Host.Outcome State Fault Refusal :=
  match i with
  | .makeBooleanW32 => Sys2Proof.Machine.execMakeBooleanW32 s
  | .makeBooleanW64 => Sys2Proof.Machine.execMakeBooleanW64 s
  | .extractLo => Sys2Proof.Machine.execExtractLo s
  | .extractHi => Sys2Proof.Machine.execExtractHi s
  | .makeLongHl => Sys2Proof.Machine.execMakeLongHl s
  | .makeIntFold => Sys2Proof.Machine.execMakeIntFold s
  | .makeByteArrayW32 => Sys2Proof.Machine.execMakeByteArrayW32 s
  | .makeByteArrayW64 => Sys2Proof.Machine.execMakeByteArrayW64 s
  | .makeByteArrayA32 len => Sys2Proof.Machine.execMakeByteArrayA32 len s
  | .makeByteArrayA64 len => Sys2Proof.Machine.execMakeByteArrayA64 len s
  | .makeIntBytes len => Sys2Proof.Machine.execMakeIntBytes len s
  | .makeLongBytes len => Sys2Proof.Machine.execMakeLongBytes len s
  | .makeIntArray len => Sys2Proof.Machine.execMakeIntArray len s
  | .makeLongArray len => Sys2Proof.Machine.execMakeLongArray len s
  | .makeDoubleW64 => Sys2Proof.Machine.execMakeDoubleW64 s
  | .makeDoubleW32x2 => Sys2Proof.Machine.execMakeDoubleW32x2 s
  | .makeFloatW32 => Sys2Proof.Machine.execMakeFloatW32 s
  | .makeDoubleOpenW64 => Sys2Proof.Machine.execMakeDoubleOpenW64 s
  | .makeDoubleOpenW32x2 => Sys2Proof.Machine.execMakeDoubleOpenW32x2 s

end Sys2Proof.Machine
end

