-- ==== Sys2Proof/Machine/Handshake.lean ====
section
/-! DEFINITION. Who moves and what the move does (10_state.md R22, R27 to R30): the core's Execute, and one step of the
schedule. -/

namespace Sys2Proof.Machine

/-- `Exec(c)` of R70 on the held command: a reserved word is refused (R72); any other runs its operation's meaning. -/
def execCommand (c : Command) (s : State) : Result :=
  match decode c.cmd with
  | .op i => exec i s
  | .reserved _ => refuse s

/-- The core's turn: Execute in Busy (R28); in any other phase the core has no step and the state stays. -/
def coreTurn (s : State) : Result :=
  match s.phase with
  | .busy c => execCommand c s
  | .idle => .next s
  | .done _ => .next s
  | .refused => .next s

/-- One step of the machine. The oldest scheduled move is made if it is enabled. An Issue or a Take that is not enabled
is no step of the host (R27, R29): it stays scheduled, and the core has its turn (log 2). With nothing scheduled the
core has its turn, so a core in Busy executes (R235). Reset is always enabled (R30). -/
def advance (s : State) : Result :=
  match s.schedule with
  | [] => coreTurn s
  | .execute :: rest => coreTurn { s with schedule := rest }
  | .reset :: rest => .next { s.resetEvent with schedule := rest }
  | .issue c :: rest =>
    match s.issue? c with
    | some t => .next { t with schedule := rest }
    | none => coreTurn s
  | .take :: rest =>
    match s.take? with
    | some t => .next { t with schedule := rest }
    | none => coreTurn s

/-- A payload that agrees with the command: LEN zeros of the kind R40 names, where MAX_BYTES admits them. -/
def zeroPayload (maxBytes : Nat) (i : Instr) : Payload :=
  if overMaxBytes i maxBytes then .empty
  else
    match i with
    | .makeBooleanW32 => .empty
    | .makeBooleanW64 => .empty
    | .extractLo => .empty
    | .extractHi => .empty
    | .makeLongHl => .empty
    | .makeIntFold => .empty
    | .makeByteArrayW32 => .empty
    | .makeByteArrayW64 => .empty
    | .makeByteArrayA32 len => .ofWords32 (List.replicate len 0#32)
    | .makeByteArrayA64 len => .ofWords64 (List.replicate len 0#64)
    | .makeIntBytes len => .ofBytes (List.replicate len 0#8)
    | .makeLongBytes len => .ofBytes (List.replicate len 0#8)
    | .makeIntArray len => .ofBytes (List.replicate len 0#8)
    | .makeLongArray len => .ofBytes (List.replicate len 0#8)
    | .makeDoubleW64 => .empty
    | .makeDoubleW32x2 => .empty
    | .makeFloatW32 => .empty
    | .makeDoubleOpenW64 => .empty
    | .makeDoubleOpenW32x2 => .empty

/-- The command word `cmd` with zero operands and a payload that agrees with it (log 12). -/
def commandOf (maxBytes : Nat) (cmd : Word64) : Command where
  cmd := cmd
  a := 0#64
  b := 0#64
  input :=
    match decode cmd with
    | .op i => zeroPayload maxBytes i
    | .reserved _ => .empty

/-- The command word is issued, and the next move is its Execute (log 12). -/
def State.placeCommand (s : State) (cmd : Word64) : State :=
  { s.capture (commandOf s.maxBytes cmd) with schedule := .execute :: s.schedule }

end Sys2Proof.Machine
end

