-- ==== Sys2Proof/Machine/Step.lean ====
section
/-! DEFINITION. The step of the machine, and how a command word comes to be the next one executed. -/

namespace Sys2Proof.Machine

/-- One step (10_state.md R22, R27 to R30). -/
def step (s : State) : Host.Outcome State Fault Refusal := advance s

/-- `s` with the command word given as spec/opcode_table.json numbers its bits held in Busy and the core to move, so
that the next step executes it (log 12). -/
def State.withFetchWord (s : State) (nbits w : Nat) : State := s.placeCommand (tableCommand nbits w)

end Sys2Proof.Machine
end

