-- ==== Sys2Proof/Machine/Assembler.lean ====
section
/-! DEFINITION. The command a line of the assembler stands for (30_encoding.md R73): the parts of a line, and where its
operands go. A pseudo-instruction has no line (R74). -/

namespace Sys2Proof.Machine

/-- A line of R73, one constructor per mnemonic, with the operands its grammar gives it: one word, two words (hi, lo), or
the items of a sequence. -/
inductive AsmLine where
  | makeBooleanW32 (word : Word32)
  | makeBooleanW64 (word : Word64)
  | extractLo (word : Word64)
  | extractHi (word : Word64)
  | makeLongHl (hi lo : Word32)
  | makeIntFold (word : Word64)
  | makeByteArrayW32 (word : Word32)
  | makeByteArrayW64 (word : Word64)
  | makeByteArrayA32 (items : List Word32)
  | makeByteArrayA64 (items : List Word64)
  | makeIntBytes (items : List Byte)
  | makeLongBytes (items : List Byte)
  | makeIntArray (items : List Byte)
  | makeLongArray (items : List Byte)
  | makeDoubleW64 (word : Word64)
  | makeDoubleW32x2 (hi lo : Word32)
  | makeFloatW32 (word : Word32)
  | makeDoubleOpenW64 (word : Word64)
  | makeDoubleOpenW32x2 (hi lo : Word32)
  deriving DecidableEq, Repr

/-- Format S with one operand: `A = zext_64(word)`, `B = 0`, `IN = []`. -/
def assembleWord (i : Instr) (word : Word64) : Command := ⟨encode i, word, 0#64, .empty⟩

/-- Format S, two-word form: `A = zext_64(hi)`, `B = zext_64(lo)`. -/
def assemblePair (i : Instr) (hi lo : Word32) : Command := ⟨encode i, hi.setWidth 64, lo.setWidth 64, .empty⟩

/-- Format Q: `IN` = the items, `A = B = 0`; LEN = their count stands in `i`. -/
def assembleItems (i : Instr) (items : Payload) : Command := ⟨encode i, 0#64, 0#64, items⟩

/-- The command's word decodes to `i`, its operand words are `a` and `b`, and its payload is `input`. -/
abbrev Command.Is (c : Command) (i : Instr) (a b : Word64) (input : Payload) : Prop :=
  decode c.cmd = .op i ∧ c.a = a ∧ c.b = b ∧ c.input = input

/-- The command of a line (R73). -/
def assemble : AsmLine → Command
  | .makeBooleanW32 w => assembleWord .makeBooleanW32 (w.setWidth 64)
  | .makeBooleanW64 w => assembleWord .makeBooleanW64 w
  | .extractLo w => assembleWord .extractLo w
  | .extractHi w => assembleWord .extractHi w
  | .makeLongHl hi lo => assemblePair .makeLongHl hi lo
  | .makeIntFold w => assembleWord .makeIntFold w
  | .makeByteArrayW32 w => assembleWord .makeByteArrayW32 (w.setWidth 64)
  | .makeByteArrayW64 w => assembleWord .makeByteArrayW64 w
  | .makeByteArrayA32 ws => assembleItems (.makeByteArrayA32 ws.length) (.ofWords32 ws)
  | .makeByteArrayA64 ws => assembleItems (.makeByteArrayA64 ws.length) (.ofWords64 ws)
  | .makeIntBytes bs => assembleItems (.makeIntBytes bs.length) (.ofBytes bs)
  | .makeLongBytes bs => assembleItems (.makeLongBytes bs.length) (.ofBytes bs)
  | .makeIntArray bs => assembleItems (.makeIntArray bs.length) (.ofBytes bs)
  | .makeLongArray bs => assembleItems (.makeLongArray bs.length) (.ofBytes bs)
  | .makeDoubleW64 w => assembleWord .makeDoubleW64 w
  | .makeDoubleW32x2 hi lo => assemblePair .makeDoubleW32x2 hi lo
  | .makeFloatW32 w => assembleWord .makeFloatW32 (w.setWidth 64)
  | .makeDoubleOpenW64 w => assembleWord .makeDoubleOpenW64 w
  | .makeDoubleOpenW32x2 hi lo => assemblePair .makeDoubleOpenW32x2 hi lo

end Sys2Proof.Machine
end

