-- ==== Sys2Proof/Machine/Platform.lean ====
section
/-! DEFINITION. A platform of NUM_INSTANCES copies of the block (60_exceptions.md R221; 10_state.md R22): each copy is a
core with a state of its own, and a step of the platform is a step of one copy. -/

namespace Sys2Proof.Machine

/-- The copies of the block, and whose step is next, oldest first (log 13). `cores.length` is NUM_INSTANCES. -/
structure Platform where
  cores : List State
  turns : List Nat
  deriving DecidableEq, Repr

/-- NUM_INSTANCES (00_scope.md R7) is at least 1. -/
abbrev Platform.WellFormed (p : Platform) : Prop := 1 ≤ p.cores.length

/-- One step of copy `k`; a number that names no copy steps nothing. -/
def Platform.stepCore (p : Platform) (k : Nat) : Host.Outcome Platform Fault Refusal :=
  match p.cores[k]? with
  | none => .next p
  | some s =>
    match step s with
    | .next t => .next { p with cores := p.cores.set k t }
    | .fault r => .fault r
    | .refused r => .refused r

/-- One step of the platform: the copy whose turn it is. DESIGN CHOICE (log 13): the spec fixes no order among the
copies; the turns listed give it, and with no turn listed no copy moves, so a copy in Busy stays there, where a single
core with nothing scheduled executes. That a copy in Busy executes eventually (70_reset_and_hazards.md R235) is then a
premise on the turns. -/
def Platform.step (p : Platform) : Host.Outcome Platform Fault Refusal :=
  match p.turns with
  | [] => .next p
  | k :: rest => ({ p with turns := rest } : Platform).stepCore k

end Sys2Proof.Machine
end

