-- ==== Sys2Proof/Safety.lean ====
section
/-! DEFINITION. What a safe run is, in the terms claims use: the premise REFUSED = false (10_state.md R26), a run that
has ended (70_reset_and_hazards.md R236), and the invariant of the machine. -/

namespace Sys2Proof.Machine

/-- No command was refused: "Every claim about the block takes `REFUSED = false` as a premise" (R26). -/
abbrev State.Safe (s : State) : Prop := s.refusedMark = false

/-- The core holds the command `c` to execute, and REFUSED is false: the premise of every claim about Execute
(R26, R28). -/
abbrev State.Holds (s : State) (c : Command) : Prop := s.phase = .busy c ∧ s.Safe

/-- The run has ended (R236): the host has no move left, it has taken the response of the command it issued last, the
phase is Idle and REFUSED is false. A run whose last command a reset dropped has not ended (log 22). -/
abbrev State.Ended (s : State) : Prop := s.schedule = [] ∧ s.awaiting = false ∧ s.phase = .idle ∧ s.Safe

/-- IN or OUT is the byte sequence `bs` (20_memory.md R40): `[]` is of every kind (log 4). -/
abbrev Payload.AreBytes (p : Payload) (bs : List Byte) : Prop := p.length = bs.length ∧ p.byteList = bs

/-- The payload is the Word32 sequence `ws`. -/
abbrev Payload.AreWords32 (p : Payload) (ws : List Word32) : Prop := p.length = ws.length ∧ p.word32List = ws

/-- The payload is the Word64 sequence `ws`. -/
abbrev Payload.AreWords64 (p : Payload) (ws : List Word64) : Prop := p.length = ws.length ∧ p.word64List = ws

/-- The response an outcome leaves offered, if any. -/
def responseOf : Result → Option Response
  | .next t => t.offered
  | .fault _ => none
  | .refused _ => none

/-- What every response of a core with the bound `maxBytes` satisfies: RES is 0 when the result is a payload (R24, R68),
the payload is written in its one form, and it is no larger than MAX_BYTES, which is at least 8 (R7, R47). -/
def Response.Sound (maxBytes : Nat) : Response → Prop
  | .ok res out =>
    (out ≠ .empty → res = 0#64) ∧ out.canonical = true ∧ out.byteSize ≤ max Config.minMaxBytes maxBytes
  | .err _ => True

/-- The invariant every step keeps: the phase Refused means REFUSED is set (R26); while a command or a response is held,
the host awaits its response (R236); and every response, held or taken, is sound. -/
structure State.Inv (s : State) : Prop where
  refused_marked : s.phase = .refused → s.refusedMark = true
  busy_awaited : ∀ c, s.phase = .busy c → s.awaiting = true
  done_awaited : ∀ r, s.phase = .done r → s.awaiting = true
  held_sound : ∀ r, s.phase = .done r → r.Sound s.maxBytes
  taken_sound : ∀ r ∈ s.taken, r.Sound s.maxBytes

end Sys2Proof.Machine
end

