-- ==== Sys2Proof/Certificates/Slice0/Obligations.lean ====
section
/-! DEFINITION. The statements about the machine, for the provers. Each docstring names the rule of spec/ it formalises.
`s.Holds c` is the premise the spec gives every claim about Execute: the core is in Busy(c) (10_state.md R28) and
REFUSED is false (R26). A conclusion written as a record update of `s` is the instruction's frame as well: every field
it does not name is as before. -/

open Sys2Proof Sys2Proof.Machine

/-! ### Sub-unit 0, bit_sign_extractor -/

/-- R100, completion and frame of `makeBoolean.w32`. -/
def Obligations.MakeBooleanW32GivesBit31 : Prop :=
  decode 0x0000000000000000#64 = .op .makeBooleanW32 ∧
  ∀ (s : State) (c : Command), s.Holds c → c.input.length = 0 →
    exec .makeBooleanW32 s =
      .next { s with phase := .done (.ok (if c.a.getLsbD 31 then 1#64 else 0#64) .empty) }

/-- R101, completion and frame of `makeBoolean.w64`. -/
def Obligations.MakeBooleanW64GivesBit63 : Prop :=
  decode 0x0000000000000001#64 = .op .makeBooleanW64 ∧
  ∀ (s : State) (c : Command), s.Holds c → c.input.length = 0 →
    exec .makeBooleanW64 s =
      .next { s with phase := .done (.ok (if c.a.getLsbD 63 then 1#64 else 0#64) .empty) }

/-- R102: complementing the word flips the answer, for both widths, whatever the operand bits are that the command
ignores. -/
def Obligations.ComplementFlipsSignBit : Prop :=
  ∀ (s : State), s.Safe →
    (∀ a a' b b' : Word64, a'.extractLsb' 0 32 = ~~~(a.extractLsb' 0 32) → ∃ x y, x ≠ y ∧
      responseOf (coreTurn (s.hold ⟨encode .makeBooleanW32, a, b, .empty⟩)) = some (.ok x .empty) ∧
      responseOf (coreTurn (s.hold ⟨encode .makeBooleanW32, a', b', .empty⟩)) = some (.ok y .empty)) ∧
    (∀ v b b' : Word64, ∃ x y, x ≠ y ∧
      responseOf (coreTurn (s.hold ⟨encode .makeBooleanW64, v, b, .empty⟩)) = some (.ok x .empty) ∧
      responseOf (coreTurn (s.hold ⟨encode .makeBooleanW64, ~~~v, b', .empty⟩)) = some (.ok y .empty))

/-! ### Sub-unit 1, word32_word64_splitter_joiner -/

/-- R110, completion and frame of `extractLo`: the low 32 bits, with no sign extension. -/
def Obligations.ExtractLoGivesLowHalf : Prop :=
  decode 0x0000000000000010#64 = .op .extractLo ∧
  ∀ (s : State) (c : Command), s.Holds c → c.input.length = 0 →
    exec .extractLo s = .next { s with phase := .done (.ok (BitVec.ofNat 64 (c.a.toNat % 2 ^ 32)) .empty) }

/-- R111, completion and frame of `extractHi`: the high 32 bits, by a logical shift. -/
def Obligations.ExtractHiGivesHighHalf : Prop :=
  decode 0x0000000000000011#64 = .op .extractHi ∧
  ∀ (s : State) (c : Command), s.Holds c → c.input.length = 0 →
    exec .extractHi s = .next { s with phase := .done (.ok (BitVec.ofNat 64 (c.a.toNat / 2 ^ 32)) .empty) }

/-- R112, completion and frame of `makeLong.hl`: hi above lo, whatever lo's bit 31 is. -/
def Obligations.MakeLongHlJoinsHalves : Prop :=
  decode 0x0000000000000012#64 = .op .makeLongHl ∧
  ∀ (s : State) (c : Command), s.Holds c → c.input.length = 0 →
    exec .makeLongHl s =
      .next { s with phase := .done (.ok
        (BitVec.ofNat 64 (c.a.toNat % 2 ^ 32 * 2 ^ 32 + c.b.toNat % 2 ^ 32)) .empty) }

/-- R113, completion and frame of `makeInt.fold`. -/
def Obligations.MakeIntFoldXorsHalves : Prop :=
  decode 0x0000000000000013#64 = .op .makeIntFold ∧
  ∀ (s : State) (c : Command), s.Holds c → c.input.length = 0 →
    exec .makeIntFold s =
      .next { s with phase := .done (.ok
        (BitVec.ofNat 64 (c.a.toNat % 2 ^ 32 ^^^ c.a.toNat / 2 ^ 32)) .empty) }

/-- R114: splitting a Word64 and joining the halves the host copies back gives it again, and the converse. -/
def Obligations.SplitJoinRoundTrip : Prop :=
  ∀ (s : State), s.Safe →
    (∀ v b : Word64, ∃ hi lo : Word64,
      responseOf (coreTurn (s.hold ⟨encode .extractHi, v, b, .empty⟩)) = some (.ok hi .empty) ∧
      responseOf (coreTurn (s.hold ⟨encode .extractLo, v, b, .empty⟩)) = some (.ok lo .empty) ∧
      responseOf (coreTurn (s.hold ⟨encode .makeLongHl, hi, lo, .empty⟩)) = some (.ok v .empty)) ∧
    (∀ hi lo : Word32, ∃ v : Word64,
      responseOf (coreTurn (s.hold (assemble (.makeLongHl hi lo)))) = some (.ok v .empty) ∧
      responseOf (coreTurn (s.hold (assemble (.extractHi v)))) = some (.ok (hi.setWidth 64) .empty) ∧
      responseOf (coreTurn (s.hold (assemble (.extractLo v)))) = some (.ok (lo.setWidth 64) .empty))

/-! ### Sub-unit 2, word_to_le_bytes -/

/-- R130, completion and frame of `makeByteArray.w32`. -/
def Obligations.MakeByteArrayW32GivesBytes : Prop :=
  decode 0x0000000000000020#64 = .op .makeByteArrayW32 ∧
  ∀ (s : State) (c : Command), s.Holds c → c.input.length = 0 →
    exec .makeByteArrayW32 s =
      .next { s with phase := .done (.ok 0#64 (.bytes
        [c.a.extractLsb' 0 8, c.a.extractLsb' 8 8, c.a.extractLsb' 16 8, c.a.extractLsb' 24 8])) }

/-- R131, completion and frame of `makeByteArray.w64`: byte i is bits 8i to 8i + 7 of A. -/
def Obligations.MakeByteArrayW64GivesBytes : Prop :=
  decode 0x0000000000000021#64 = .op .makeByteArrayW64 ∧
  ∀ (s : State) (c : Command), s.Holds c → c.input.length = 0 →
    exec .makeByteArrayW64 s =
      .next { s with phase := .done (.ok 0#64 (.bytes
        ((List.range 8).map fun i => c.a.extractLsb' (8 * i) 8))) }

/-- R132 (with R42), completion and frame of `makeByteArray.a32`: byte j of OUT is byte j mod 4 of word
j div 4. It is admitted only with LEN words and 4·LEN within MAX_BYTES, and refused otherwise. -/
def Obligations.MakeByteArrayA32GivesBytes : Prop :=
  (∀ n, n < 2 ^ 32 → decode (BitVec.ofNat 64 (n * 2 ^ 32 + 0x22)) = .op (.makeByteArrayA32 n)) ∧
  (∀ (s : State) (c : Command) (ws : List Word32), s.Holds c → c.input.AreWords32 ws → 4 * ws.length ≤ s.maxBytes →
    ∃ bs : List Byte,
      exec (.makeByteArrayA32 ws.length) s = .next { s with phase := .done (.ok 0#64 (.ofBytes bs)) } ∧
      bs.length = 4 * ws.length ∧
      ∀ j, j < 4 * ws.length → bs.getD j 0#8 = (ws.getD (j / 4) 0#32).extractLsb' (8 * (j % 4)) 8) ∧
  (∀ (s : State) (c : Command) (n : Nat), s.phase = .busy c →
    (∀ ws : List Word32, c.input.AreWords32 ws → ws.length ≠ n) ∨ s.maxBytes < 4 * n →
    exec (.makeByteArrayA32 n) s = .next { s with phase := .refused, refusedMark := true })

/-- R133 (with R42), completion and frame of `makeByteArray.a64`: byte j of OUT is byte j mod 8 of word
j div 8. It is admitted only with LEN words and 8·LEN within MAX_BYTES, and refused otherwise. -/
def Obligations.MakeByteArrayA64GivesBytes : Prop :=
  (∀ n, n < 2 ^ 32 → decode (BitVec.ofNat 64 (n * 2 ^ 32 + 0x23)) = .op (.makeByteArrayA64 n)) ∧
  (∀ (s : State) (c : Command) (ws : List Word64), s.Holds c → c.input.AreWords64 ws → 8 * ws.length ≤ s.maxBytes →
    ∃ bs : List Byte,
      exec (.makeByteArrayA64 ws.length) s = .next { s with phase := .done (.ok 0#64 (.ofBytes bs)) } ∧
      bs.length = 8 * ws.length ∧
      ∀ j, j < 8 * ws.length → bs.getD j 0#8 = (ws.getD (j / 8) 0#64).extractLsb' (8 * (j % 8)) 8) ∧
  (∀ (s : State) (c : Command) (n : Nat), s.phase = .busy c →
    (∀ ws : List Word64, c.input.AreWords64 ws → ws.length ≠ n) ∨ s.maxBytes < 8 * n →
    exec (.makeByteArrayA64 n) s = .next { s with phase := .refused, refusedMark := true })

/-- R44: a Word64 array serialises to the bytes of the Word32 array of its halves, low half first. -/
def Obligations.Word64ArraySerialisesAsItsHalves : Prop :=
  ∀ (s : State) (a b : Word64) (ws : List Word64), s.Safe → 2 * ws.length < 2 ^ 32 → 8 * ws.length ≤ s.maxBytes →
    ∃ r : Response, r.status = 0#8 ∧
      responseOf (coreTurn (s.hold ⟨encode (.makeByteArrayA64 ws.length), a, b, .ofWords64 ws⟩)) = some r ∧
      responseOf (coreTurn (s.hold ⟨encode (.makeByteArrayA32 (2 * ws.length)), a, b,
        .ofWords32 (ws.flatMap fun w => [w.extractLsb' 0 32, w.extractLsb' 32 32])⟩)) = some r

/-! ### Sub-unit 3, bytes_to_le_word -/

/-- R150, completion and frame of `makeInt.bytes`: four bytes give their word, any other length the error response. -/
def Obligations.MakeIntBytesParsesFourBytes : Prop :=
  (∀ n, n < 2 ^ 32 → decode (BitVec.ofNat 64 (n * 2 ^ 32 + 0x30)) = .op (.makeIntBytes n)) ∧
  (∀ (s : State) (c : Command) (b0 b1 b2 b3 : Byte), s.Holds c → c.input.AreBytes [b0, b1, b2, b3] → 4 ≤ s.maxBytes →
    exec (.makeIntBytes 4) s = .next { s with phase := .done (.ok (0#32 ++ (b3 ++ b2 ++ b1 ++ b0)) .empty) }) ∧
  (∀ (s : State) (c : Command) (bs : List Byte), s.Holds c → c.input.AreBytes bs → bs.length ≤ s.maxBytes →
    bs.length ≠ 4 →
    exec (.makeIntBytes bs.length) s = .next { s with phase := .done (.err .invalidLength) })

/-- R151, completion and frame of `makeLong.bytes`. -/
def Obligations.MakeLongBytesParsesEightBytes : Prop :=
  (∀ n, n < 2 ^ 32 → decode (BitVec.ofNat 64 (n * 2 ^ 32 + 0x31)) = .op (.makeLongBytes n)) ∧
  (∀ (s : State) (c : Command) (b0 b1 b2 b3 b4 b5 b6 b7 : Byte), s.Holds c →
    c.input.AreBytes [b0, b1, b2, b3, b4, b5, b6, b7] → 8 ≤ s.maxBytes →
    exec (.makeLongBytes 8) s =
      .next { s with phase := .done (.ok (b7 ++ b6 ++ b5 ++ b4 ++ b3 ++ b2 ++ b1 ++ b0) .empty) }) ∧
  (∀ (s : State) (c : Command) (bs : List Byte), s.Holds c → c.input.AreBytes bs → bs.length ≤ s.maxBytes →
    bs.length ≠ 8 →
    exec (.makeLongBytes bs.length) s = .next { s with phase := .done (.err .invalidLength) })

/-- R152 (with R43), completion and frame of `makeIntArray`: word i of OUT is bytes 4i to 4i + 3, and a length that 4
does not divide gives the error response with no partial array. -/
def Obligations.MakeIntArrayParsesWords : Prop :=
  (∀ n, n < 2 ^ 32 → decode (BitVec.ofNat 64 (n * 2 ^ 32 + 0x32)) = .op (.makeIntArray n)) ∧
  ∀ (s : State) (c : Command) (bs : List Byte), s.Holds c → c.input.AreBytes bs → bs.length ≤ s.maxBytes →
    (bs.length % 4 = 0 → ∃ ws : List Word32,
      exec (.makeIntArray bs.length) s = .next { s with phase := .done (.ok 0#64 (.ofWords32 ws)) } ∧
      ws.length = bs.length / 4 ∧
      ∀ i, i < bs.length / 4 →
        ws.getD i 0#32 =
          bs.getD (4 * i + 3) 0#8 ++ bs.getD (4 * i + 2) 0#8 ++ bs.getD (4 * i + 1) 0#8 ++ bs.getD (4 * i) 0#8) ∧
    (bs.length % 4 ≠ 0 →
      exec (.makeIntArray bs.length) s = .next { s with phase := .done (.err .invalidLength) })

/-- R153 (with R43), completion and frame of `makeLongArray`. -/
def Obligations.MakeLongArrayParsesWords : Prop :=
  (∀ n, n < 2 ^ 32 → decode (BitVec.ofNat 64 (n * 2 ^ 32 + 0x33)) = .op (.makeLongArray n)) ∧
  ∀ (s : State) (c : Command) (bs : List Byte), s.Holds c → c.input.AreBytes bs → bs.length ≤ s.maxBytes →
    (bs.length % 8 = 0 → ∃ ws : List Word64,
      exec (.makeLongArray bs.length) s = .next { s with phase := .done (.ok 0#64 (.ofWords64 ws)) } ∧
      ws.length = bs.length / 8 ∧
      ∀ i, i < bs.length / 8 →
        ws.getD i 0#64 =
          bs.getD (8 * i + 7) 0#8 ++ bs.getD (8 * i + 6) 0#8 ++ bs.getD (8 * i + 5) 0#8 ++ bs.getD (8 * i + 4) 0#8 ++
          bs.getD (8 * i + 3) 0#8 ++ bs.getD (8 * i + 2) 0#8 ++ bs.getD (8 * i + 1) 0#8 ++ bs.getD (8 * i) 0#8) ∧
    (bs.length % 8 ≠ 0 →
      exec (.makeLongArray bs.length) s = .next { s with phase := .done (.err .invalidLength) })

/-- R135: parsing the bytes of a serialiser's response, copied back by the host, gives the word or the array again. -/
def Obligations.ParseOfSerialiseRoundTrip : Prop :=
  ∀ (s : State), s.Safe → 8 ≤ s.maxBytes →
    (∀ w : Word32, ∃ bs : List Byte,
      responseOf (coreTurn (s.hold (assemble (.makeByteArrayW32 w)))) = some (.ok 0#64 (.ofBytes bs)) ∧
      responseOf (coreTurn (s.hold (assemble (.makeIntBytes bs)))) = some (.ok (w.setWidth 64) .empty)) ∧
    (∀ w : Word64, ∃ bs : List Byte,
      responseOf (coreTurn (s.hold (assemble (.makeByteArrayW64 w)))) = some (.ok 0#64 (.ofBytes bs)) ∧
      responseOf (coreTurn (s.hold (assemble (.makeLongBytes bs)))) = some (.ok w .empty)) ∧
    (∀ ws : List Word32, 4 * ws.length < 2 ^ 32 → 4 * ws.length ≤ s.maxBytes → ∃ bs : List Byte,
      responseOf (coreTurn (s.hold (assemble (.makeByteArrayA32 ws)))) = some (.ok 0#64 (.ofBytes bs)) ∧
      responseOf (coreTurn (s.hold (assemble (.makeIntArray bs)))) = some (.ok 0#64 (.ofWords32 ws))) ∧
    (∀ ws : List Word64, 8 * ws.length < 2 ^ 32 → 8 * ws.length ≤ s.maxBytes → ∃ bs : List Byte,
      responseOf (coreTurn (s.hold (assemble (.makeByteArrayA64 ws)))) = some (.ok 0#64 (.ofBytes bs)) ∧
      responseOf (coreTurn (s.hold (assemble (.makeLongArray bs)))) = some (.ok 0#64 (.ofWords64 ws)))

/-- R155: serialising what a parse accepted gives the bytes again. -/
def Obligations.SerialiseOfParseRoundTrip : Prop :=
  ∀ (s : State) (bs : List Byte), s.Safe → bs.length < 2 ^ 32 → bs.length ≤ s.maxBytes →
    (bs.length = 4 → ∃ w : Word32,
      responseOf (coreTurn (s.hold (assemble (.makeIntBytes bs)))) = some (.ok (w.setWidth 64) .empty) ∧
      responseOf (coreTurn (s.hold (assemble (.makeByteArrayW32 w)))) = some (.ok 0#64 (.ofBytes bs))) ∧
    (bs.length = 8 → ∃ w : Word64,
      responseOf (coreTurn (s.hold (assemble (.makeLongBytes bs)))) = some (.ok w .empty) ∧
      responseOf (coreTurn (s.hold (assemble (.makeByteArrayW64 w)))) = some (.ok 0#64 (.ofBytes bs))) ∧
    (bs.length % 4 = 0 → ∃ ws : List Word32,
      responseOf (coreTurn (s.hold (assemble (.makeIntArray bs)))) = some (.ok 0#64 (.ofWords32 ws)) ∧
      responseOf (coreTurn (s.hold (assemble (.makeByteArrayA32 ws)))) = some (.ok 0#64 (.ofBytes bs))) ∧
    (bs.length % 8 = 0 → ∃ ws : List Word64,
      responseOf (coreTurn (s.hold (assemble (.makeLongArray bs)))) = some (.ok 0#64 (.ofWords64 ws)) ∧
      responseOf (coreTurn (s.hold (assemble (.makeByteArrayA64 ws)))) = some (.ok 0#64 (.ofBytes bs)))

/-! ### IEEE-754 patterns -/

/-- R15: Bin64Exact(m, k) is a pattern with sign 0 whose value, by the formula of R14, is exactly m × 2^−k. The layout
is general knowledge (log 10). -/
def Obligations.Bin64ExactHasExactValue : Prop :=
  ∀ m k : Nat, m < 2 ^ 53 → 1 ≤ k → k ≤ 1022 →
    f64Value (bin64Exact m k) = some ((m : ℚ) / 2 ^ k) ∧ (bin64Exact m k).getLsbD 63 = false

/-- R16: the same of Bin32Exact(m, k) (log 10). -/
def Obligations.Bin32ExactHasExactValue : Prop :=
  ∀ m k : Nat, m < 2 ^ 24 → 1 ≤ k → k ≤ 126 →
    f32Value (bin32Exact m k) = some ((m : ℚ) / 2 ^ k) ∧ (bin32Exact m k).getLsbD 31 = false

/-- R18 and R192: on a pattern with sign 0 and the exponent field of 1.0, the subtraction of 1.0 is the exact IEEE-754
difference (log 10, log 11). -/
def Obligations.F64SubOneIsExactDifference : Prop :=
  ∀ x : Word64, x.extractLsb' 52 12 = 0x3FF#12 → IsF64Difference x 0x3FF0000000000000#64 (f64SubOne x)

/-! ### Sub-unit 4, ieee754_unit_float_constructor -/

/-- R170, completion and frame of `makeDouble.w64`. -/
def Obligations.MakeDoubleW64ScalesTop53Bits : Prop :=
  decode 0x0000000000000040#64 = .op .makeDoubleW64 ∧
  ∀ (s : State) (c : Command), s.Holds c → c.input.length = 0 →
    exec .makeDoubleW64 s = .next { s with phase := .done (.ok (bin64Exact (c.a.toNat / 2 ^ 11) 53) .empty) }

/-- R171, completion and frame of `makeDouble.w32x2`: hi's top 26 bits above lo's top 27, a placement that is the
spec's own reading (92_eei_decisions.md D16; log 18). -/
def Obligations.MakeDoubleW32x2ScalesTop26And27Bits : Prop :=
  decode 0x0000000000000041#64 = .op .makeDoubleW32x2 ∧
  ∀ (s : State) (c : Command), s.Holds c → c.input.length = 0 →
    exec .makeDoubleW32x2 s =
      .next { s with phase := .done (.ok
        (bin64Exact (c.a.toNat % 2 ^ 32 / 2 ^ 6 * 2 ^ 27 + c.b.toNat % 2 ^ 32 / 2 ^ 5) 53) .empty) }

/-- R172, completion and frame of `makeFloat.w32`. -/
def Obligations.MakeFloatW32ScalesTop24Bits : Prop :=
  decode 0x0000000000000042#64 = .op .makeFloatW32 ∧
  ∀ (s : State) (c : Command), s.Holds c → c.input.length = 0 →
    exec .makeFloatW32 s =
      .next { s with phase := .done (.ok (0#32 ++ bin32Exact (c.a.toNat % 2 ^ 32 / 2 ^ 8) 24) .empty) }

/-- R173: every half-open result is a number in [0, 1); the two double commands give exactly the numbers m × 2^−53 and
the float command exactly the numbers m × 2^−24. -/
def Obligations.HalfOpenResultsAreUnitInterval : Prop :=
  ∀ (s : State), s.Safe →
    (∀ a b : Word64, ∃ (res : Word64) (m : Nat), m < 2 ^ 53 ∧
      responseOf (coreTurn (s.hold ⟨encode .makeDoubleW64, a, b, .empty⟩)) = some (.ok res .empty) ∧
      f64Value res = some ((m : ℚ) / 2 ^ 53) ∧ 0 ≤ (m : ℚ) / 2 ^ 53 ∧ (m : ℚ) / 2 ^ 53 < 1) ∧
    (∀ a b : Word64, ∃ (res : Word64) (m : Nat), m < 2 ^ 53 ∧
      responseOf (coreTurn (s.hold ⟨encode .makeDoubleW32x2, a, b, .empty⟩)) = some (.ok res .empty) ∧
      f64Value res = some ((m : ℚ) / 2 ^ 53) ∧ 0 ≤ (m : ℚ) / 2 ^ 53 ∧ (m : ℚ) / 2 ^ 53 < 1) ∧
    (∀ a b : Word64, ∃ (f : Word32) (m : Nat), m < 2 ^ 24 ∧
      responseOf (coreTurn (s.hold ⟨encode .makeFloatW32, a, b, .empty⟩)) = some (.ok (0#32 ++ f) .empty) ∧
      f32Value f = some ((m : ℚ) / 2 ^ 24) ∧ 0 ≤ (m : ℚ) / 2 ^ 24 ∧ (m : ℚ) / 2 ^ 24 < 1) ∧
    (∀ m : Nat, m < 2 ^ 53 →
      (∃ a res : Word64, responseOf (coreTurn (s.hold (assemble (.makeDoubleW64 a)))) = some (.ok res .empty) ∧
        f64Value res = some ((m : ℚ) / 2 ^ 53)) ∧
      (∃ (hi lo : Word32) (res : Word64),
        responseOf (coreTurn (s.hold (assemble (.makeDoubleW32x2 hi lo)))) = some (.ok res .empty) ∧
        f64Value res = some ((m : ℚ) / 2 ^ 53))) ∧
    (∀ m : Nat, m < 2 ^ 24 → ∃ w f : Word32,
      responseOf (coreTurn (s.hold (assemble (.makeFloatW32 w)))) = some (.ok (0#32 ++ f) .empty) ∧
      f32Value f = some ((m : ℚ) / 2 ^ 24))

/-- R174: the exact inputs on which a half-open command answers +0.0. -/
def Obligations.HalfOpenZeroSet : Prop :=
  ∀ (s : State), s.Safe →
    (∀ v : Word64, responseOf (coreTurn (s.hold (assemble (.makeDoubleW64 v)))) = some (.ok 0#64 .empty) ↔
      v.toNat < 0x800) ∧
    (∀ hi lo : Word32, responseOf (coreTurn (s.hold (assemble (.makeDoubleW32x2 hi lo)))) = some (.ok 0#64 .empty) ↔
      hi.toNat < 0x40 ∧ lo.toNat < 0x20) ∧
    (∀ v : Word32, responseOf (coreTurn (s.hold (assemble (.makeFloatW32 v)))) = some (.ok 0#64 .empty) ↔
      v.toNat < 0x100)

/-! ### Sub-unit 5, ieee754_open_unit_float_constructor -/

/-- R190, completion and frame of `makeDoubleOpen.w64`: RES is the exact difference of X and 1.0, where X has the
exponent field of 1.0 and the fraction f, the top 52 bits with the lowest forced to 1; and that is Bin64Exact(f, 52). -/
def Obligations.MakeDoubleOpenW64SubtractsOne : Prop :=
  decode 0x0000000000000050#64 = .op .makeDoubleOpenW64 ∧
  ∀ (s : State) (c : Command), s.Holds c → c.input.length = 0 →
    ∃ res : Word64,
      exec .makeDoubleOpenW64 s = .next { s with phase := .done (.ok res .empty) } ∧
      IsF64Difference (0x3FF0000000000000#64 ||| ((c.a >>> 12) ||| 1#64)) 0x3FF0000000000000#64 res ∧
      res = bin64Exact (c.a.toNat / 2 ^ 12 ||| 1) 52

/-- R191, completion and frame of `makeDoubleOpen.w32x2`: the construction of R190 on {hi, lo}, and so the response
`makeDoubleOpen.w64` gives to the word `makeLong.hl` answers. -/
def Obligations.MakeDoubleOpenW32x2IsOpenOfJoin : Prop :=
  decode 0x0000000000000051#64 = .op .makeDoubleOpenW32x2 ∧
  (∀ (s : State) (c : Command), s.Holds c → c.input.length = 0 →
    exec .makeDoubleOpenW32x2 s =
      .next { s with phase := .done (.ok
        (bin64Exact ((c.a.toNat % 2 ^ 32 * 2 ^ 32 + c.b.toNat % 2 ^ 32) / 2 ^ 12 ||| 1) 52) .empty) }) ∧
  (∀ (s : State) (a b : Word64), s.Safe → ∃ v : Word64,
    responseOf (coreTurn (s.hold ⟨encode .makeLongHl, a, b, .empty⟩)) = some (.ok v .empty) ∧
    responseOf (coreTurn (s.hold ⟨encode .makeDoubleOpenW32x2, a, b, .empty⟩)) =
      responseOf (coreTurn (s.hold (assemble (.makeDoubleOpenW64 v)))))

/-- R194 and R195: every open result is a number strictly between 0 and 1, and the results of each of the two
commands are exactly f × 2^−52 with f odd. -/
def Obligations.OpenResultsAreOpenInterval : Prop :=
  ∀ (s : State), s.Safe →
    (∀ a b : Word64, ∃ (res : Word64) (f : Nat), f % 2 = 1 ∧ f < 2 ^ 52 ∧
      responseOf (coreTurn (s.hold ⟨encode .makeDoubleOpenW64, a, b, .empty⟩)) = some (.ok res .empty) ∧
      f64Value res = some ((f : ℚ) / 2 ^ 52) ∧ 0 < (f : ℚ) / 2 ^ 52 ∧ (f : ℚ) / 2 ^ 52 < 1) ∧
    (∀ a b : Word64, ∃ (res : Word64) (f : Nat), f % 2 = 1 ∧ f < 2 ^ 52 ∧
      responseOf (coreTurn (s.hold ⟨encode .makeDoubleOpenW32x2, a, b, .empty⟩)) = some (.ok res .empty) ∧
      f64Value res = some ((f : ℚ) / 2 ^ 52) ∧ 0 < (f : ℚ) / 2 ^ 52 ∧ (f : ℚ) / 2 ^ 52 < 1) ∧
    (∀ f : Nat, f % 2 = 1 → f < 2 ^ 52 →
      (∃ a res : Word64, responseOf (coreTurn (s.hold (assemble (.makeDoubleOpenW64 a)))) = some (.ok res .empty) ∧
        f64Value res = some ((f : ℚ) / 2 ^ 52)) ∧
      (∃ (hi lo : Word32) (res : Word64),
        responseOf (coreTurn (s.hold (assemble (.makeDoubleOpenW32x2 hi lo)))) = some (.ok res .empty) ∧
        f64Value res = some ((f : ℚ) / 2 ^ 52)))

/-! ### Operands, status and refusal -/

/-- R67: what a command ignores does not reach its outcome, at any value of the ignored bits. -/
def Obligations.IgnoredOperandBitsDoNotMatter : Prop :=
  ∀ (s : State) (c d : Command), c.input = d.input →
    (c.a.extractLsb' 0 32 = d.a.extractLsb' 0 32 →
      exec .makeBooleanW32 (s.hold c) = exec .makeBooleanW32 (s.hold d) ∧
      exec .makeByteArrayW32 (s.hold c) = exec .makeByteArrayW32 (s.hold d) ∧
      exec .makeFloatW32 (s.hold c) = exec .makeFloatW32 (s.hold d)) ∧
    (c.a = d.a →
      exec .makeBooleanW64 (s.hold c) = exec .makeBooleanW64 (s.hold d) ∧
      exec .extractLo (s.hold c) = exec .extractLo (s.hold d) ∧
      exec .extractHi (s.hold c) = exec .extractHi (s.hold d) ∧
      exec .makeIntFold (s.hold c) = exec .makeIntFold (s.hold d) ∧
      exec .makeByteArrayW64 (s.hold c) = exec .makeByteArrayW64 (s.hold d) ∧
      exec .makeDoubleW64 (s.hold c) = exec .makeDoubleW64 (s.hold d) ∧
      exec .makeDoubleOpenW64 (s.hold c) = exec .makeDoubleOpenW64 (s.hold d)) ∧
    (c.a.extractLsb' 0 32 = d.a.extractLsb' 0 32 → c.b.extractLsb' 0 32 = d.b.extractLsb' 0 32 →
      exec .makeLongHl (s.hold c) = exec .makeLongHl (s.hold d) ∧
      exec .makeDoubleW32x2 (s.hold c) = exec .makeDoubleW32x2 (s.hold d) ∧
      exec .makeDoubleOpenW32x2 (s.hold c) = exec .makeDoubleOpenW32x2 (s.hold d)) ∧
    (∀ n : Nat,
      exec (.makeByteArrayA32 n) (s.hold c) = exec (.makeByteArrayA32 n) (s.hold d) ∧
      exec (.makeByteArrayA64 n) (s.hold c) = exec (.makeByteArrayA64 n) (s.hold d) ∧
      exec (.makeIntBytes n) (s.hold c) = exec (.makeIntBytes n) (s.hold d) ∧
      exec (.makeLongBytes n) (s.hold c) = exec (.makeLongBytes n) (s.hold d) ∧
      exec (.makeIntArray n) (s.hold c) = exec (.makeIntArray n) (s.hold d) ∧
      exec (.makeLongArray n) (s.hold c) = exec (.makeLongArray n) (s.hold d))

/-- R211: an admitted command answers STATUS 1 exactly when it is a parse of a wrong length, and STATUS 0 otherwise
(R210, R32: no other value is ever produced). -/
def Obligations.InvalidLengthExactlyOnWrongParseLength : Prop :=
  ∀ (s : State) (c : Command) (i : Instr), s.Holds c → decode c.cmd = .op i →
    payloadMatches i c.input = true → overMaxBytes i s.maxBytes = false →
    ∃ r : Response, coreTurn s = .next { s with phase := .done r } ∧
      (r.status = 1#8 ↔
        cmdOpc c.cmd = 0x30#8 ∧ cmdLen c.cmd ≠ 4 ∨ cmdOpc c.cmd = 0x31#8 ∧ cmdLen c.cmd ≠ 8 ∨
        cmdOpc c.cmd = 0x32#8 ∧ cmdLen c.cmd % 4 ≠ 0 ∨ cmdOpc c.cmd = 0x33#8 ∧ cmdLen c.cmd % 8 ≠ 0) ∧
      (r.status ≠ 1#8 → r.status = 0#8)

/-- R72 with R28: executing a command word of any of the three reserved classes sets REFUSED and moves to Refused; every
other command word is an operation's. -/
def Obligations.ReservedCommandIsRefused : Prop :=
  ∀ (s : State) (c : Command), s.phase = .busy c →
    let reserved := c.cmd.extractLsb' 8 24 ≠ 0#24 ∨
      c.cmd.extractLsb' 0 8 ∉ [0x00#8, 0x01#8, 0x10#8, 0x11#8, 0x12#8, 0x13#8, 0x20#8, 0x21#8, 0x22#8, 0x23#8,
        0x30#8, 0x31#8, 0x32#8, 0x33#8, 0x40#8, 0x41#8, 0x42#8, 0x50#8, 0x51#8] ∨
      c.cmd.extractLsb' 0 8 ∈ [0x00#8, 0x01#8, 0x10#8, 0x11#8, 0x12#8, 0x13#8, 0x20#8, 0x21#8,
        0x40#8, 0x41#8, 0x42#8, 0x50#8, 0x51#8] ∧ c.cmd.extractLsb' 32 32 ≠ 0#32
    (reserved → coreTurn s = .next { s with phase := .refused, refusedMark := true }) ∧
    (¬reserved → ∃ i : Instr, decode c.cmd = .op i)

/-- R46: a command whose payload is not of the kind R40 names, or not of LEN's length, is refused; it is never an
invalid-length error (R215, R216). -/
def Obligations.PayloadMismatchIsRefused : Prop :=
  ∀ (s : State) (c : Command), s.phase = .busy c →
    (∀ i : Instr, i.format = .S → c.input.length ≠ 0 →
      exec i s = .next { s with phase := .refused, refusedMark := true }) ∧
    (∀ n : Nat, (∀ ws : List Word32, c.input.AreWords32 ws → ws.length ≠ n) →
      exec (.makeByteArrayA32 n) s = .next { s with phase := .refused, refusedMark := true }) ∧
    (∀ n : Nat, (∀ ws : List Word64, c.input.AreWords64 ws → ws.length ≠ n) →
      exec (.makeByteArrayA64 n) s = .next { s with phase := .refused, refusedMark := true }) ∧
    (∀ n : Nat, (∀ bs : List Byte, c.input.AreBytes bs → bs.length ≠ n) →
      exec (.makeIntBytes n) s = .next { s with phase := .refused, refusedMark := true } ∧
      exec (.makeLongBytes n) s = .next { s with phase := .refused, refusedMark := true } ∧
      exec (.makeIntArray n) s = .next { s with phase := .refused, refusedMark := true } ∧
      exec (.makeLongArray n) s = .next { s with phase := .refused, refusedMark := true })

/-- R47: a payload over MAX_BYTES is refused, whatever its own length check would have said. -/
def Obligations.PayloadOverMaxBytesIsRefused : Prop :=
  ∀ (s : State) (c : Command) (n : Nat), s.phase = .busy c →
    (s.maxBytes < 4 * n → exec (.makeByteArrayA32 n) s = .next { s with phase := .refused, refusedMark := true }) ∧
    (s.maxBytes < 8 * n → exec (.makeByteArrayA64 n) s = .next { s with phase := .refused, refusedMark := true }) ∧
    (s.maxBytes < n →
      exec (.makeIntBytes n) s = .next { s with phase := .refused, refusedMark := true } ∧
      exec (.makeLongBytes n) s = .next { s with phase := .refused, refusedMark := true } ∧
      exec (.makeIntArray n) s = .next { s with phase := .refused, refusedMark := true } ∧
      exec (.makeLongArray n) s = .next { s with phase := .refused, refusedMark := true })

/-! ### The handshake -/

/-- 10_state.md R33: the state the machine starts in, and that it meets the invariant. -/
def Obligations.ResetStateIsIdleAndMeetsInv : Prop :=
  State.reset.Inv ∧ State.reset.phase = .idle ∧ State.reset.refusedMark = false ∧ State.reset.offered = none ∧
    State.reset.awaiting = false

/-- R27: in Idle, an Issue captures the command whole (and the host awaits its response, log 22). That an Issue in another phase waits, unmade, is the model's
choice (log 2). -/
def Obligations.IssueCapturesCommandInIdleOnly : Prop :=
  ∀ (s : State) (c : Command) (rest : List Move), s.schedule = .issue c :: rest →
    (s.phase = .idle → step s = .next { s with phase := .busy c, awaiting := true, schedule := rest }) ∧
    (s.phase ≠ .idle → ∃ t, step s = .next t ∧ t.schedule = s.schedule)

/-- R29: in Done(r), Take hands r to the host and the phase is Idle; in another phase the host takes nothing. What
the host has taken and awaits are the model's fields (logs 1 and 22), and that the Take waits is its choice (log 2). -/
def Obligations.TakeHandsOverResponseInDoneOnly : Prop :=
  ∀ (s : State) (rest : List Move), s.schedule = .take :: rest →
    (∀ r, s.phase = .done r →
      step s = .next { s with phase := .idle, taken := s.taken ++ [r], awaiting := false, schedule := rest }) ∧
    ((∀ r, s.phase ≠ .done r) → ∃ t, step s = .next t ∧ t.taken = s.taken)

/-- R30 (and R230): a Reset, in any phase, leaves the phase Idle and nothing held, and keeps REFUSED; what the host has
taken stays taken (log 14), and a response it has not taken it still awaits (log 22). -/
def Obligations.ResetEmptiesHandshakeInAnyPhase : Prop :=
  ∀ (s : State) (rest : List Move), s.schedule = .reset :: rest →
    step s = .next { s with phase := .idle, schedule := rest }

/-- The core moves: when the held command decodes to i, and the next move is Execute, or an Issue or a Take that has to
wait, or none, the step is the meaning of i at that state (an Execute is taken off the schedule first). -/
def Obligations.StepRunsDecodedInstruction : Prop :=
  ∀ (s : State) (c : Command) (i : Instr), s.phase = .busy c → decode c.cmd = .op i →
    (s.schedule = [] → step s = exec i s) ∧
    (∀ rest, s.schedule = .execute :: rest → step s = exec i { s with schedule := rest }) ∧
    (∀ d rest, s.schedule = .issue d :: rest → step s = exec i s) ∧
    (∀ rest, s.schedule = .take :: rest → step s = exec i s)

/-- How a command word is placed (log 12): the next step runs the instruction the word decodes to, with a payload that
agrees with it unless MAX_BYTES refuses it. -/
def Obligations.PlacedWordIsRunNext : Prop :=
  ∀ (s : State) (nbits w : Nat) (i : Instr), decodeTableWord nbits w = some i →
    ∃ c : Command, step (s.withFetchWord nbits w) = exec i { s.hold c with awaiting := true } ∧ decode c.cmd = .op i ∧
      (overMaxBytes i s.maxBytes = false → payloadMatches i c.input = true)

/-- R235: in Busy, Execute always ends, in Done with a response or in Refused, and changes nothing else. -/
def Obligations.ExecuteEndsInDoneOrRefused : Prop :=
  ∀ (s : State) (c : Command), s.phase = .busy c →
    (∃ r, coreTurn s = .next { s with phase := .done r }) ∨
    coreTurn s = .next { s with phase := .refused, refusedMark := true }

/-- R51 and R218: no instruction has an effect other than its response, or its refusal. -/
def Obligations.ExecChangesOnlyPhaseAndMark : Prop :=
  ∀ (i : Instr) (s t : State), exec i s = .next t →
    t.maxBytes = s.maxBytes ∧ t.schedule = s.schedule ∧ t.taken = s.taken ∧ t.awaiting = s.awaiting ∧
    ((∃ r, t.phase = .done r) ∧ t.refusedMark = s.refusedMark ∨ t.phase = .refused ∧ t.refusedMark = true)

/-- R20: the answer to a command depends on the command alone: two cores that hold the same command, whatever else
they hold and did before, answer alike (under one MAX_BYTES). -/
def Obligations.AnswerDependsOnCommandAlone : Prop :=
  ∀ (s t u v : State) (c : Command), s.phase = .busy c → t.phase = .busy c → s.maxBytes = t.maxBytes →
    coreTurn s = .next u → coreTurn t = .next v → u.phase = v.phase ∧ u.offered = v.offered

/-- No state stops the machine: every step answers a next state. -/
def Obligations.StepAnswersNextEverywhere : Prop :=
  ∀ s : State, ∃ t, step s = .next t

/-- R26: along a step REFUSED is set exactly when it was set, or when the step ends in the phase Refused; so it is never
cleared, not even by Reset. -/
def Obligations.RefusedMarkIsPermanent : Prop :=
  ∀ s t : State, s.Inv → step s = .next t → (t.refusedMark = true ↔ s.refusedMark = true ∨ t.phase = .refused)

/-- The invariant: every step keeps it. -/
def Obligations.StepKeepsInv : Prop :=
  ∀ s t : State, s.Inv → step s = .next t → t.Inv ∧ t.maxBytes = s.maxBytes ∧ s.taken <+: t.taken

/-- A host that issues before it takes: the Issue waits, and the block stays in Done. R234 and I10 speak of a host that
never takes, and R234 has a breach of the duty to issue only in Idle lead to a refusal of which nothing is claimed; that
such an Issue waits and the state stays as it is, is the model's choice (log 2). -/
def Obligations.UntakenResponseBlocksIssue : Prop :=
  ∀ (s : State) (r : Response) (c : Command) (rest : List Move), s.phase = .done r →
    s.schedule = .issue c :: rest → step s = .next s

/-- R28, R26 and R234: outside Busy the core has no step. In Idle, Done and Refused its turn changes nothing, also when
an Execute is scheduled, and with nothing scheduled no number of steps does, so a response stays offered for as long as
the host delays its Take; and from Refused only a Reset leads to another phase. That a step with nothing to do leaves
the state is the model's choice (logs 1 and 2). -/
def Obligations.CoreTurnOutsideBusyChangesNothing : Prop :=
  ∀ s : State, (∀ c, s.phase ≠ .busy c) →
    coreTurn s = .next s ∧
    (∀ rest, s.schedule = .execute :: rest → step s = .next { s with schedule := rest }) ∧
    (s.schedule = [] → ∀ k, Sys2Proof.core.run k s = .next s) ∧
    (s.phase = .refused → ∀ t, step s = .next t →
      t.taken = s.taken ∧ t.refusedMark = s.refusedMark ∧
      (t.phase = .refused ∨ t.phase = .idle ∧ ∃ rest, s.schedule = .reset :: rest))

/-- R236: a run whose last command a Reset dropped has not ended, though nothing is left to do, the phase is Idle and
REFUSED is false; the schedule and what the host awaits are the model's (logs 1 and 22). -/
def Obligations.RunWithDroppedLastCommandHasNotEnded : Prop :=
  ∀ (s : State) (c : Command), s.phase = .idle → s.Safe →
    (s.schedule = [.issue c, .reset] → ∃ t : State, Sys2Proof.core.run 2 s = .next t ∧
      t.schedule = [] ∧ t.phase = .idle ∧ t.Safe ∧ t.taken = s.taken ∧ ¬t.Ended) ∧
    (s.schedule = [.issue c, .reset, .issue c, .take] → ∀ r : Response,
      (∀ t : State, t.maxBytes = s.maxBytes → t.Holds c → coreTurn t = .next { t with phase := .done r }) →
      ∃ t : State, Sys2Proof.core.run 5 s = .next t ∧ t.taken = s.taken ++ [r] ∧ t.Ended)

/-- R31 and R236: from Idle with REFUSED false, a host that issues commands one by one and takes each response gets
exactly one response per command, in issue order, and the run ends. The responses are whatever the core answers each
command with. That the moves stand in a schedule (log 1) and that each Take waits while the core has its turn, which
makes three steps per command (log 2), is the model's choice. -/
def Obligations.ResponsesAreTakenInIssueOrder : Prop :=
  ∀ (s : State) (cs : List (Command × Response)), s.phase = .idle → s.Safe → (cs = [] → s.awaiting = false) →
    (∀ p ∈ cs, ∀ t : State, t.maxBytes = s.maxBytes → t.Holds p.1 →
      coreTurn t = .next { t with phase := .done p.2 }) →
    s.schedule = cs.flatMap (fun p => [.issue p.1, .take]) →
    ∃ t : State, Sys2Proof.core.run (3 * cs.length) s = .next t ∧
      t = { s with schedule := [], taken := s.taken ++ cs.map Prod.snd, awaiting := false } ∧ t.Ended

/-! ### Encoding -/

/-- A few command words written out from R60 and R64. -/
def Obligations.SampleWordsDecode : Prop :=
  decode 0x0000000000000013#64 = .op .makeIntFold ∧
  decode 0x0000000200000022#64 = .op (.makeByteArrayA32 2) ∧
  decode 0x0000000400000030#64 = .op (.makeIntBytes 4) ∧
  decode 0x0000000000000051#64 = .op .makeDoubleOpenW32x2 ∧
  decode 0x0000000000000100#64 = .reserved .rsvdNonzero ∧
  decode 0x0000000000000014#64 = .reserved .unassignedOpcode ∧
  decode 0x0000000100000040#64 = .reserved .scalarLenNonzero

/-- Decoding an encoded well-formed command gives it back, with every LEN (R73, R69). -/
def Obligations.DecodeOfEncode : Prop :=
  ∀ i : Instr, i.WellFormed → decode (encode i) = .op i

/-- Each operation has one word: what decodes to i is the word of i, and i is well-formed (R69, R71). -/
def Obligations.EncodeOfDecode : Prop :=
  ∀ (w : Word64) (i : Instr), decode w = .op i → encode i = w ∧ i.WellFormed

/-- R69, R72: a command word decodes to Reserved exactly in the three classes of R72, each by its name, and to an
operation otherwise. -/
def Obligations.ReservedExactlyInThreeClasses : Prop :=
  ∀ w : Word64,
    (decode w = .reserved .rsvdNonzero ↔ w.toNat / 2 ^ 8 % 2 ^ 24 ≠ 0) ∧
    (decode w = .reserved .unassignedOpcode ↔ w.toNat / 2 ^ 8 % 2 ^ 24 = 0 ∧ ∀ i : Instr, i.opc.toNat ≠ w.toNat % 2 ^ 8) ∧
    (decode w = .reserved .scalarLenNonzero ↔
      w.toNat / 2 ^ 8 % 2 ^ 24 = 0 ∧ (∃ i : Instr, i.opc.toNat = w.toNat % 2 ^ 8 ∧ i.format = .S) ∧ 2 ^ 32 ≤ w.toNat) ∧
    ((∃ i, decode w = .op i) ↔
      w.toNat / 2 ^ 8 % 2 ^ 24 = 0 ∧ ∃ i : Instr, i.opc.toNat = w.toNat % 2 ^ 8 ∧ (i.format = .S → w.toNat < 2 ^ 32))

/-- R66: in the codec units FN[0] selects the word width and FN[1] the array form, and FN[3:2] is 0. -/
def Obligations.CodecFunctionFieldStructure : Prop :=
  ∀ (w : Word64) (i : Instr), decode w = .op i → (cmdUnit w = 2#4 ∨ cmdUnit w = 3#4) →
    (cmdFn w).extractLsb' 2 2 = 0#2 ∧
    ((cmdFn w).getLsbD 0 = true ↔ i = .makeByteArrayW64 ∨ i = .makeByteArrayA64 i.len ∨
      i = .makeLongBytes i.len ∨ i = .makeLongArray i.len) ∧
    ((cmdFn w).getLsbD 1 = true ↔ i = .makeByteArrayA32 i.len ∨ i = .makeByteArrayA64 i.len ∨
      i = .makeIntArray i.len ∨ i = .makeLongArray i.len)

/-- R73: where a line's mnemonic, words and items go. Format S with one word: A = zext_64(word), B = 0; with two words:
A = zext_64(hi), B = zext_64(lo); format Q: IN = the items, LEN = their count, A = B = 0. And every line whose items'
count fits LEN is admitted, if its size is within MAX_BYTES (R46, R47): executing it answers a response. A line is its
parts (log 20). -/
def Obligations.AssembledLineIsAdmitted : Prop :=
  (∀ w : Word32,
    (assemble (.makeBooleanW32 w)).Is .makeBooleanW32 (w.setWidth 64) 0#64 .empty ∧
    (assemble (.makeByteArrayW32 w)).Is .makeByteArrayW32 (w.setWidth 64) 0#64 .empty ∧
    (assemble (.makeFloatW32 w)).Is .makeFloatW32 (w.setWidth 64) 0#64 .empty) ∧
  (∀ w : Word64,
    (assemble (.makeBooleanW64 w)).Is .makeBooleanW64 w 0#64 .empty ∧
    (assemble (.extractLo w)).Is .extractLo w 0#64 .empty ∧
    (assemble (.extractHi w)).Is .extractHi w 0#64 .empty ∧
    (assemble (.makeIntFold w)).Is .makeIntFold w 0#64 .empty ∧
    (assemble (.makeByteArrayW64 w)).Is .makeByteArrayW64 w 0#64 .empty ∧
    (assemble (.makeDoubleW64 w)).Is .makeDoubleW64 w 0#64 .empty ∧
    (assemble (.makeDoubleOpenW64 w)).Is .makeDoubleOpenW64 w 0#64 .empty) ∧
  (∀ hi lo : Word32,
    (assemble (.makeLongHl hi lo)).Is .makeLongHl (hi.setWidth 64) (lo.setWidth 64) .empty ∧
    (assemble (.makeDoubleW32x2 hi lo)).Is .makeDoubleW32x2 (hi.setWidth 64) (lo.setWidth 64) .empty ∧
    (assemble (.makeDoubleOpenW32x2 hi lo)).Is .makeDoubleOpenW32x2 (hi.setWidth 64) (lo.setWidth 64) .empty) ∧
  (∀ ws : List Word32, ws.length < 2 ^ 32 →
    (assemble (.makeByteArrayA32 ws)).Is (.makeByteArrayA32 ws.length) 0#64 0#64 (.ofWords32 ws)) ∧
  (∀ ws : List Word64, ws.length < 2 ^ 32 →
    (assemble (.makeByteArrayA64 ws)).Is (.makeByteArrayA64 ws.length) 0#64 0#64 (.ofWords64 ws)) ∧
  (∀ bs : List Byte, bs.length < 2 ^ 32 →
    (assemble (.makeIntBytes bs)).Is (.makeIntBytes bs.length) 0#64 0#64 (.ofBytes bs) ∧
    (assemble (.makeLongBytes bs)).Is (.makeLongBytes bs.length) 0#64 0#64 (.ofBytes bs) ∧
    (assemble (.makeIntArray bs)).Is (.makeIntArray bs.length) 0#64 0#64 (.ofBytes bs) ∧
    (assemble (.makeLongArray bs)).Is (.makeLongArray bs.length) 0#64 0#64 (.ofBytes bs)) ∧
  (∀ l : AsmLine, (assemble l).input.length < 2 ^ 32 →
    ∃ i : Instr, decode (assemble l).cmd = .op i ∧ payloadMatches i (assemble l).input = true ∧
      i.len = (assemble l).input.length ∧
      ∀ s : State, s.Holds (assemble l) → overMaxBytes i s.maxBytes = false →
        ∃ r : Response, coreTurn s = .next { s with phase := .done r })

/-! ### Several copies -/

/-- R221: a step of one copy leaves every other copy as it was, does to its own copy what that copy does alone, and
steps of two copies commute. -/
def Obligations.CopiesDoNotObserveEachOther : Prop :=
  ∀ (p q : Platform) (k : Nat), p.stepCore k = .next q →
    q.cores.length = p.cores.length ∧
    (∀ j, j ≠ k → q.cores[j]? = p.cores[j]?) ∧
    (∀ s, p.cores[k]? = some s → ∃ t, step s = .next t ∧ q.cores[k]? = some t) ∧
    (∀ j q' r r', j ≠ k → p.stepCore j = .next q' → q.stepCore j = .next r → q'.stepCore k = .next r' → r = r')
end

