-- ==== Sys2Proof/Laws/Bytes.lean ====
section
/-! SUPPORT. The laws of the byte order (20_memory.md R41 to R43). -/

namespace Sys2Proof.Machine

@[simp] theorem length_le4 (w : Word32) : (le4 w).length = 4 := rfl
@[simp] theorem length_le8 (w : Word64) : (le8 w).length = 8 := rfl

@[simp] theorem leSeq4_nil : leSeq4 [] = [] := rfl
@[simp] theorem leSeq8_nil : leSeq8 [] = [] := rfl
@[simp] theorem leSeq4_cons (w : Word32) (ws : List Word32) : leSeq4 (w :: ws) = le4 w ++ leSeq4 ws := rfl
@[simp] theorem leSeq8_cons (w : Word64) (ws : List Word64) : leSeq8 (w :: ws) = le8 w ++ leSeq8 ws := rfl

@[simp] theorem length_leSeq4 (ws : List Word32) : (leSeq4 ws).length = 4 * ws.length := by
  induction ws with
  | nil => rfl
  | cons w ws ih => simp [ih]; omega

@[simp] theorem length_leSeq8 (ws : List Word64) : (leSeq8 ws).length = 8 * ws.length := by
  induction ws with
  | nil => rfl
  | cons w ws ih => simp [ih]; omega

/-- "In general, byte i of the sequence is `w[8i+7:8i]`" (R41). -/
theorem le4_eq_map (w : Word32) : le4 w = (List.range 4).map fun i => w.extractLsb' (8 * i) 8 := rfl

theorem le8_eq_map (w : Word64) : le8 w = (List.range 8).map fun i => w.extractLsb' (8 * i) 8 := rfl

theorem getD_le4 (w : Word32) (i : Nat) (h : i < 4) : (le4 w).getD i 0#8 = w.extractLsb' (8 * i) 8 := by
  simp [le4_eq_map, List.getD_eq_getElem?_getD, h]

theorem getD_le8 (w : Word64) (i : Nat) (h : i < 8) : (le8 w).getD i 0#8 = w.extractLsb' (8 * i) 8 := by
  simp [le8_eq_map, List.getD_eq_getElem?_getD, h]

/-- One word read back from its bytes. -/
theorem fromLE4_bytes (w : Word32) :
    fromLE4 (w.extractLsb' 0 8) (w.extractLsb' 8 8) (w.extractLsb' 16 8) (w.extractLsb' 24 8) = w := by
  refine BitVec.eq_of_getLsbD_eq fun i hi => ?_
  simp only [fromLE4, BitVec.getLsbD_append, BitVec.getLsbD_extractLsb', Nat.sub_sub]
  split_ifs <;> simp_all <;> grind

theorem fromLE8_bytes (w : Word64) :
    fromLE8 (w.extractLsb' 0 8) (w.extractLsb' 8 8) (w.extractLsb' 16 8) (w.extractLsb' 24 8)
      (w.extractLsb' 32 8) (w.extractLsb' 40 8) (w.extractLsb' 48 8) (w.extractLsb' 56 8) = w := by
  refine BitVec.eq_of_getLsbD_eq fun i hi => ?_
  simp only [fromLE8, BitVec.getLsbD_append, BitVec.getLsbD_extractLsb', Nat.sub_sub]
  split_ifs <;> simp_all <;> grind

/-- Four bytes read back from their word. -/
@[simp] theorem parseWord32_four (b0 b1 b2 b3 : Byte) :
    parseWord32 [b0, b1, b2, b3] = some (fromLE4 b0 b1 b2 b3) := rfl

@[simp] theorem parseWord64_eight (b0 b1 b2 b3 b4 b5 b6 b7 : Byte) :
    parseWord64 [b0, b1, b2, b3, b4, b5, b6, b7] = some (fromLE8 b0 b1 b2 b3 b4 b5 b6 b7) := rfl

/-- No other number of bytes than 4 is a Word32 (43_bytes_to_le_word.md R150). -/
theorem parseWord32_eq_none {bs : List Byte} (h : bs.length ≠ 4) : parseWord32 bs = none := by
  unfold parseWord32; split
  · exact absurd rfl h
  · rfl

/-- No other number of bytes than 8 is a Word64 (R151). -/
theorem parseWord64_eq_none {bs : List Byte} (h : bs.length ≠ 8) : parseWord64 bs = none := by
  unfold parseWord64; split
  · exact absurd rfl h
  · rfl

/-- Four bytes are a Word32 (R150). -/
theorem parseWord32_isSome : {bs : List Byte} → bs.length = 4 → ∃ w, parseWord32 bs = some w
  | [_, _, _, _], _ => ⟨_, rfl⟩

/-- Eight bytes are a Word64 (R151). -/
theorem parseWord64_isSome : {bs : List Byte} → bs.length = 8 → ∃ w, parseWord64 bs = some w
  | [_, _, _, _, _, _, _, _], _ => ⟨_, rfl⟩

theorem le4_fromLE4 (b0 b1 b2 b3 : Byte) : le4 (fromLE4 b0 b1 b2 b3) = [b0, b1, b2, b3] := by
  simp only [le4, List.cons.injEq, and_true]
  refine ⟨?_, ?_, ?_, ?_⟩ <;>
    · ext i hi
      simp only [fromLE4, BitVec.getElem_extractLsb', BitVec.getLsbD_append]
      split_ifs <;> first | omega | (simp [← BitVec.getLsbD_eq_getElem]; done) | (simp [← BitVec.getLsbD_eq_getElem]; congr 1; omega)

theorem le8_fromLE8 (b0 b1 b2 b3 b4 b5 b6 b7 : Byte) :
    le8 (fromLE8 b0 b1 b2 b3 b4 b5 b6 b7) = [b0, b1, b2, b3, b4, b5, b6, b7] := by
  simp only [le8, List.cons.injEq, and_true]
  refine ⟨?_, ?_, ?_, ?_, ?_, ?_, ?_, ?_⟩ <;>
    · ext i hi
      simp only [fromLE8, BitVec.getElem_extractLsb', BitVec.getLsbD_append]
      split_ifs <;> first | omega | (simp [← BitVec.getLsbD_eq_getElem]; done) | (simp [← BitVec.getLsbD_eq_getElem]; congr 1; omega)

theorem parseSeq4_step (b0 b1 b2 b3 : Byte) (rest : List Byte) :
    parseSeq4 (b0 :: b1 :: b2 :: b3 :: rest) = fromLE4 b0 b1 b2 b3 :: parseSeq4 rest := by rw [parseSeq4]

theorem parseSeq8_step (b0 b1 b2 b3 b4 b5 b6 b7 : Byte) (rest : List Byte) :
    parseSeq8 (b0 :: b1 :: b2 :: b3 :: b4 :: b5 :: b6 :: b7 :: rest) =
      fromLE8 b0 b1 b2 b3 b4 b5 b6 b7 :: parseSeq8 rest := by rw [parseSeq8]

/-- How many words a parse gives: a part of a word gives none (20_memory.md R49). -/
theorem length_parseSeq4 (bs : List Byte) : (parseSeq4 bs).length = bs.length / 4 := by
  induction bs using parseSeq4.induct with
  | case1 b0 b1 b2 b3 rest ih => rw [parseSeq4_step]; simp only [List.length_cons, ih]; omega
  | case2 bs h =>
    have hlt : bs.length < 4 := by
      by_contra hl
      refine h bs[0] bs[1] bs[2] bs[3] (bs.drop 4) ?_
      simp only [← List.drop_eq_getElem_cons, List.drop_zero]
    rw [parseSeq4, Nat.div_eq_of_lt hlt]
    · rfl
    · exact h

theorem length_parseSeq8 (bs : List Byte) : (parseSeq8 bs).length = bs.length / 8 := by
  induction bs using parseSeq8.induct with
  | case1 b0 b1 b2 b3 b4 b5 b6 b7 rest ih => rw [parseSeq8_step]; simp only [List.length_cons, ih]; omega
  | case2 bs h =>
    have hlt : bs.length < 8 := by
      by_contra hl
      refine h bs[0] bs[1] bs[2] bs[3] bs[4] bs[5] bs[6] bs[7] (bs.drop 8) ?_
      simp only [← List.drop_eq_getElem_cons, List.drop_zero]
    rw [parseSeq8, Nat.div_eq_of_lt hlt]
    · rfl
    · exact h

/-- A serialised array parses back (R43). -/
theorem parseSeq4_leSeq4 (ws : List Word32) : parseSeq4 (leSeq4 ws) = ws := by
  induction ws with
  | nil => rfl
  | cons w ws ih => simp only [leSeq4_cons, le4, List.cons_append, List.nil_append, parseSeq4_step, fromLE4_bytes, ih]

theorem parseSeq8_leSeq8 (ws : List Word64) : parseSeq8 (leSeq8 ws) = ws := by
  induction ws with
  | nil => rfl
  | cons w ws ih => simp only [leSeq8_cons, le8, List.cons_append, List.nil_append, parseSeq8_step, fromLE8_bytes, ih]

end Sys2Proof.Machine
end

