-- ==== Sys2Proof/Laws/PerInstr.lean ====
section
/-! SUPPORT. The family EncodedWord: what a command's encoded word is as a number, one lemma per row of 30_encoding.md
R64. -/

namespace Sys2Proof.Laws.EncodedWord

/-- The word is LEN above the 24 reserved bits, which are 0, above OPC (R60, R73). -/
def Statement (i : Instr) : Prop :=
  i.WellFormed → (encode i).toNat = i.len * 2 ^ 32 + i.opc.toNat

theorem of_len (i : Instr) : Statement i := by
  intro h
  have h : i.len < 2 ^ 32 := h
  have hopc : i.opc.toNat < 2 ^ 8 := i.opc.isLt
  simp only [encode, BitVec.toNat_append, BitVec.toNat_ofNat, Config.lenBits, Nat.mod_eq_of_lt h]
  rw [← Nat.shiftLeft_add_eq_or_of_lt hopc]
  simp only [Nat.shiftLeft_eq, Nat.zero_mod, Nat.or_zero]
  omega

theorem makeBooleanW32 : Statement .makeBooleanW32 := of_len _
theorem makeBooleanW64 : Statement .makeBooleanW64 := of_len _
theorem extractLo : Statement .extractLo := of_len _
theorem extractHi : Statement .extractHi := of_len _
theorem makeLongHl : Statement .makeLongHl := of_len _
theorem makeIntFold : Statement .makeIntFold := of_len _
theorem makeByteArrayW32 : Statement .makeByteArrayW32 := of_len _
theorem makeByteArrayW64 : Statement .makeByteArrayW64 := of_len _
theorem makeByteArrayA32 (len : Nat) : Statement (.makeByteArrayA32 len) := of_len _
theorem makeByteArrayA64 (len : Nat) : Statement (.makeByteArrayA64 len) := of_len _
theorem makeIntBytes (len : Nat) : Statement (.makeIntBytes len) := of_len _
theorem makeLongBytes (len : Nat) : Statement (.makeLongBytes len) := of_len _
theorem makeIntArray (len : Nat) : Statement (.makeIntArray len) := of_len _
theorem makeLongArray (len : Nat) : Statement (.makeLongArray len) := of_len _
theorem makeDoubleW64 : Statement .makeDoubleW64 := of_len _
theorem makeDoubleW32x2 : Statement .makeDoubleW32x2 := of_len _
theorem makeFloatW32 : Statement .makeFloatW32 := of_len _
theorem makeDoubleOpenW64 : Statement .makeDoubleOpenW64 := of_len _
theorem makeDoubleOpenW32x2 : Statement .makeDoubleOpenW32x2 := of_len _

end Sys2Proof.Laws.EncodedWord
end

