-- ==== Sys2Proof/Laws/Decode.lean ====
section
/-! SUPPORT. The decoder by the number of the command word: what it needs of a word, and what it answers. -/

namespace Sys2Proof

theorem cmdOpc_toNat (w : Word64) : (cmdOpc w).toNat = w.toNat % 2 ^ 8 := by
  simp [cmdOpc, BitVec.extractLsb'_toNat]

theorem cmdRsvd_toNat (w : Word64) : (cmdRsvd w).toNat = w.toNat / 2 ^ 8 % 2 ^ 24 := by
  simp [cmdRsvd, BitVec.extractLsb'_toNat, Nat.shiftRight_eq_div_pow]

theorem cmdLen_eq (w : Word64) : cmdLen w = w.toNat / 2 ^ 32 := by
  have := w.isLt
  simp only [cmdLen, BitVec.extractLsb'_toNat, Nat.shiftRight_eq_div_pow]
  omega

/-- What a format-S row needs of a word (30_encoding.md R69). -/
theorem decode_scalar {w : Word64} {i : Instr} (hr : cmdRsvd w = 0#24) (hq : sequenceRow (cmdOpc w) (cmdLen w) = none)
    (hs : scalarRow (cmdOpc w) = some i) (hl : cmdLen w = 0) : decode w = .op i := by
  simp only [decode, hr, hq, hs]
  simp [hl]

/-- What a format-Q row needs of a word (R69). -/
theorem decode_sequence {w : Word64} {i : Instr} (hr : cmdRsvd w = 0#24)
    (hq : sequenceRow (cmdOpc w) (cmdLen w) = some i) : decode w = .op i := by
  simp [decode, hr, hq]

/-- A format-S row gives a command of that opcode and format, with no LEN. -/
theorem scalarRow_eq_some {opc : BitVec 8} {i : Instr} (h : scalarRow opc = some i) :
    i.opc = opc ∧ i.format = .S ∧ i.len = 0 := by
  unfold scalarRow at h
  split at h <;> cases h <;> simp [Instr.opc, Instr.format, Instr.len]

/-- A format-Q row gives a command of that opcode and format, with the word's LEN. -/
theorem sequenceRow_eq_some {opc : BitVec 8} {len : Nat} {i : Instr} (h : sequenceRow opc len = some i) :
    i.opc = opc ∧ i.format = .Q ∧ i.len = len := by
  unfold sequenceRow at h
  split at h <;> cases h <;> simp [Instr.opc, Instr.format, Instr.len]

/-- Each command stands in the rows of its format. -/
theorem rows_of_format (i : Instr) :
    (i.format = .S → scalarRow i.opc = some i ∧ ∀ n, sequenceRow i.opc n = none) ∧
    (i.format = .Q → sequenceRow i.opc i.len = some i) := by
  cases i <;> simp [Instr.format, Instr.opc, Instr.len, scalarRow, sequenceRow]

/-- Everything a decoded word says of itself. -/
theorem decode_op_cases {w : Word64} {i : Instr} (h : decode w = .op i) :
    cmdRsvd w = 0#24 ∧ cmdOpc w = i.opc ∧ i.len = cmdLen w := by
  unfold decode at h
  split at h
  · cases h
  · rename_i hr
    refine ⟨by simpa using hr, ?_⟩
    split at h
    · rename_i j hq
      cases h
      obtain ⟨h1, -, h3⟩ := sequenceRow_eq_some hq
      exact ⟨h1.symm, h3⟩
    · rename_i j hq hs
      split at h
      · cases h
      · rename_i hl
        cases h
        obtain ⟨h1, -, h3⟩ := scalarRow_eq_some hs
        exact ⟨h1.symm, by simp_all⟩
    · cases h

end Sys2Proof
end

