-- ==== Sys2Proof/Laws/State.lean ====
section
/-! SUPPORT. One lemma per field per update of State, so that no later proof unfolds a record update. -/

namespace Sys2Proof.Machine

section Hold
variable (s : State) (c : Command)
@[simp] theorem State.hold_phase : (s.hold c).phase = .busy c := rfl
@[simp] theorem State.hold_refusedMark : (s.hold c).refusedMark = s.refusedMark := rfl
@[simp] theorem State.hold_maxBytes : (s.hold c).maxBytes = s.maxBytes := rfl
@[simp] theorem State.hold_schedule : (s.hold c).schedule = s.schedule := rfl
@[simp] theorem State.hold_taken : (s.hold c).taken = s.taken := rfl
@[simp] theorem State.hold_awaiting : (s.hold c).awaiting = s.awaiting := rfl
@[simp] theorem State.hold_offered : (s.hold c).offered = none := rfl
@[simp] theorem State.hold_hold (d : Command) : (s.hold c).hold d = s.hold d := rfl
end Hold

section Respond
variable (s : State) (r : Response)
@[simp] theorem State.respond_phase : (s.respond r).phase = .done r := rfl
@[simp] theorem State.respond_refusedMark : (s.respond r).refusedMark = s.refusedMark := rfl
@[simp] theorem State.respond_maxBytes : (s.respond r).maxBytes = s.maxBytes := rfl
@[simp] theorem State.respond_schedule : (s.respond r).schedule = s.schedule := rfl
@[simp] theorem State.respond_taken : (s.respond r).taken = s.taken := rfl
@[simp] theorem State.respond_awaiting : (s.respond r).awaiting = s.awaiting := rfl
@[simp] theorem State.respond_offered : (s.respond r).offered = some r := rfl
@[simp] theorem State.hold_respond (c : Command) : (s.hold c).respond r = s.respond r := rfl
end Respond

section Refuse
variable (s : State)
@[simp] theorem State.refuse_phase : s.refuse.phase = .refused := rfl
@[simp] theorem State.refuse_refusedMark : s.refuse.refusedMark = true := rfl
@[simp] theorem State.refuse_maxBytes : s.refuse.maxBytes = s.maxBytes := rfl
@[simp] theorem State.refuse_schedule : s.refuse.schedule = s.schedule := rfl
@[simp] theorem State.refuse_taken : s.refuse.taken = s.taken := rfl
@[simp] theorem State.refuse_awaiting : s.refuse.awaiting = s.awaiting := rfl
@[simp] theorem State.refuse_offered : s.refuse.offered = none := rfl
@[simp] theorem State.hold_refuse (c : Command) : (s.hold c).refuse = s.refuse := rfl
end Refuse

section Capture
variable (s : State) (c : Command)
@[simp] theorem State.capture_phase : (s.capture c).phase = .busy c := rfl
@[simp] theorem State.capture_refusedMark : (s.capture c).refusedMark = s.refusedMark := rfl
@[simp] theorem State.capture_maxBytes : (s.capture c).maxBytes = s.maxBytes := rfl
@[simp] theorem State.capture_schedule : (s.capture c).schedule = s.schedule := rfl
@[simp] theorem State.capture_taken : (s.capture c).taken = s.taken := rfl
@[simp] theorem State.capture_awaiting : (s.capture c).awaiting = true := rfl
@[simp] theorem State.capture_offered : (s.capture c).offered = none := rfl
end Capture

section HandOver
variable (s : State) (r : Response)
@[simp] theorem State.handOver_phase : (s.handOver r).phase = .idle := rfl
@[simp] theorem State.handOver_refusedMark : (s.handOver r).refusedMark = s.refusedMark := rfl
@[simp] theorem State.handOver_maxBytes : (s.handOver r).maxBytes = s.maxBytes := rfl
@[simp] theorem State.handOver_schedule : (s.handOver r).schedule = s.schedule := rfl
@[simp] theorem State.handOver_taken : (s.handOver r).taken = s.taken ++ [r] := rfl
@[simp] theorem State.handOver_awaiting : (s.handOver r).awaiting = false := rfl
@[simp] theorem State.handOver_offered : (s.handOver r).offered = none := rfl
end HandOver

section ResetEvent
variable (s : State)
@[simp] theorem State.resetEvent_phase : s.resetEvent.phase = .idle := rfl
@[simp] theorem State.resetEvent_refusedMark : s.resetEvent.refusedMark = s.refusedMark := rfl
@[simp] theorem State.resetEvent_maxBytes : s.resetEvent.maxBytes = s.maxBytes := rfl
@[simp] theorem State.resetEvent_schedule : s.resetEvent.schedule = s.schedule := rfl
@[simp] theorem State.resetEvent_taken : s.resetEvent.taken = s.taken := rfl
@[simp] theorem State.resetEvent_awaiting : s.resetEvent.awaiting = s.awaiting := rfl
@[simp] theorem State.resetEvent_offered : s.resetEvent.offered = none := rfl
end ResetEvent

@[simp] theorem Response.status_ok (res : Word64) (out : Payload) : (Response.ok res out).status = 0#8 := rfl
@[simp] theorem Response.status_err (k : ErrorKind) : (Response.err k).status = 1#8 := by cases k; rfl
@[simp] theorem Response.result_ok (res : Word64) (out : Payload) : (Response.ok res out).result? = some (res, out) := rfl
@[simp] theorem Response.result_err (k : ErrorKind) : (Response.err k).result? = none := rfl

end Sys2Proof.Machine
end

