-- ==== Sys2Proof/Laws/Ops.lean ====
section
/-! SUPPORT. Once for each shared operation, everything it can do. -/

namespace Sys2Proof.Machine

variable {s t : State} {c : Command} {i : Instr} {rule : Command → Result}

/-- The bound of R47, read as an inequality. -/
theorem overMaxBytes_eq_false (i : Instr) (maxBytes : Nat) :
    overMaxBytes i maxBytes = false ↔ boundedBytes i ≤ maxBytes := by
  simp only [overMaxBytes, decide_eq_false_iff_not, not_lt]

theorem overMaxBytes_eq_true (i : Instr) (maxBytes : Nat) :
    overMaxBytes i maxBytes = true ↔ maxBytes < boundedBytes i := by
  simp only [overMaxBytes, decide_eq_true_eq]

/-- A W32 or F32 result has 32 zero bits above it (30_encoding.md R68). -/
theorem resWord32_eq_append (w : Word32) : resWord32 w = 0#32 ++ w := by
  apply BitVec.eq_of_toNat_eq
  have := w.isLt
  rw [resWord32, BitVec.toNat_setWidth, BitVec.toNat_append, Nat.mod_eq_of_lt (by omega)]
  simp

/-- An admitted command runs its rule (30_encoding.md R70). -/
theorem whenAdmitted_rule (h : s.phase = .busy c) (hm : payloadMatches i c.input = true)
    (ho : overMaxBytes i s.maxBytes = false) : whenAdmitted i s rule = rule c := by
  simp [whenAdmitted, h, hm, ho]

/-- A payload that disagrees with the command is refused (20_memory.md R46). -/
theorem whenAdmitted_mismatch (h : s.phase = .busy c) (hm : payloadMatches i c.input = false) :
    whenAdmitted i s rule = .next s.refuse := by
  simp [whenAdmitted, h, hm, refuse]

/-- A payload over MAX_BYTES is refused, whatever it holds (R47). -/
theorem whenAdmitted_over (h : s.phase = .busy c) (ho : overMaxBytes i s.maxBytes = true) :
    whenAdmitted i s rule = .next s.refuse := by
  simp [whenAdmitted, h, ho, refuse]

/-- Everything admission can do. -/
theorem whenAdmitted_cases (i : Instr) (s : State) (rule : Command → Result) :
    (whenAdmitted i s rule = .fault .noCommandHeld ∧ ∀ c, s.phase ≠ .busy c) ∨
    ∃ c, s.phase = .busy c ∧
      (whenAdmitted i s rule = .next s.refuse ∨
        whenAdmitted i s rule = rule c ∧ payloadMatches i c.input = true ∧ boundedBytes i ≤ s.maxBytes) := by
  unfold whenAdmitted
  split
  case h_1 c h =>
    refine .inr ⟨c, h, ?_⟩
    split
    · split
      · exact .inl rfl
      · rename_i hm ho
        exact .inr ⟨rfl, hm, by simpa [overMaxBytes] using ho⟩
    · exact .inl rfl
  all_goals exact .inl ⟨rfl, by simp_all⟩

@[simp] theorem responseOf_respond (s : State) (r : Response) : responseOf (.next (s.respond r)) = some r := rfl
@[simp] theorem responseOf_refuse (s : State) : responseOf (.next s.refuse) = none := rfl
@[simp] theorem completeRes_eq (s : State) (res : Word64) : completeRes s res = .next (s.respond (.ok res .empty)) := rfl
@[simp] theorem completeOut_eq (s : State) (out : Payload) : completeOut s out = .next (s.respond (.ok 0#64 out)) := rfl
@[simp] theorem raiseInvalidLength_eq (s : State) :
    raiseInvalidLength s = .next (s.respond (.err .invalidLength)) := rfl
@[simp] theorem refuse_eq (s : State) : refuse s = .next s.refuse := rfl

/-- Everything Issue can do (10_state.md R27). -/
theorem issue_eq_some (h : s.issue? c = some t) : s.phase = .idle ∧ t = s.capture c := by
  unfold State.issue? at h
  split at h
  · rename_i hp; exact ⟨hp, by simpa using h.symm⟩
  all_goals cases h

theorem issue_idle (h : s.phase = .idle) : s.issue? c = some (s.capture c) := by simp [State.issue?, h]

theorem issue_not_idle (h : s.phase ≠ .idle) : s.issue? c = none := by
  unfold State.issue?; split <;> simp_all

/-- Everything Take can do (10_state.md R29). -/
theorem take_eq_some (h : s.take? = some t) :
    ∃ r, s.phase = .done r ∧ t = s.handOver r := by
  unfold State.take? at h
  split at h
  · rename_i r hp; exact ⟨r, hp, by simpa using h.symm⟩
  all_goals cases h

theorem take_done {r : Response} (h : s.phase = .done r) :
    s.take? = some (s.handOver r) := by simp [State.take?, h]

theorem take_not_done (h : ∀ r, s.phase ≠ .done r) : s.take? = none := by
  unfold State.take?; split <;> simp_all

end Sys2Proof.Machine
end

