-- ==== Sys2Proof/Laws/Payload.lean ====
section
/-! SUPPORT. The payloads the machine writes, and what admission says of the ones it reads. -/

namespace Sys2Proof.Machine

variable (bs : List Byte) (ws : List Word32) (vs : List Word64) (p : Payload) (n : Nat)

@[simp] theorem Payload.length_ofBytes : (Payload.ofBytes bs).length = bs.length := by cases bs <;> rfl
@[simp] theorem Payload.length_ofWords32 : (Payload.ofWords32 ws).length = ws.length := by cases ws <;> rfl
@[simp] theorem Payload.length_ofWords64 : (Payload.ofWords64 vs).length = vs.length := by cases vs <;> rfl

@[simp] theorem Payload.byteList_ofBytes : (Payload.ofBytes bs).byteList = bs := by cases bs <;> rfl
@[simp] theorem Payload.word32List_ofWords32 : (Payload.ofWords32 ws).word32List = ws := by cases ws <;> rfl
@[simp] theorem Payload.word64List_ofWords64 : (Payload.ofWords64 vs).word64List = vs := by cases vs <;> rfl

@[simp] theorem Payload.byteSize_ofBytes : (Payload.ofBytes bs).byteSize = bs.length := by cases bs <;> rfl
@[simp] theorem Payload.byteSize_ofWords32 : (Payload.ofWords32 ws).byteSize = 4 * ws.length := by cases ws <;> rfl
@[simp] theorem Payload.byteSize_ofWords64 : (Payload.ofWords64 vs).byteSize = 8 * vs.length := by cases vs <;> rfl

@[simp] theorem Payload.canonical_ofBytes : (Payload.ofBytes bs).canonical = true := by cases bs <;> rfl
@[simp] theorem Payload.canonical_ofWords32 : (Payload.ofWords32 ws).canonical = true := by cases ws <;> rfl
@[simp] theorem Payload.canonical_ofWords64 : (Payload.ofWords64 vs).canonical = true := by cases vs <;> rfl

/-- Admission of a byte sequence, in the terms of statements. -/
theorem Payload.isBytes_iff : p.isBytes n = true ↔ p.AreBytes p.byteList ∧ p.byteList.length = n := by
  simp only [Payload.isBytes, Bool.and_eq_true, beq_iff_eq]
  constructor
  · rintro ⟨h1, h2⟩; exact ⟨⟨h1.trans h2.symm, rfl⟩, h2⟩
  · rintro ⟨⟨h1, -⟩, h2⟩; exact ⟨h1.trans h2, h2⟩

theorem Payload.isWords32_iff : p.isWords32 n = true ↔ p.AreWords32 p.word32List ∧ p.word32List.length = n := by
  simp only [Payload.isWords32, Bool.and_eq_true, beq_iff_eq]
  constructor
  · rintro ⟨h1, h2⟩; exact ⟨⟨h1.trans h2.symm, rfl⟩, h2⟩
  · rintro ⟨⟨h1, -⟩, h2⟩; exact ⟨h1.trans h2, h2⟩

theorem Payload.isWords64_iff : p.isWords64 n = true ↔ p.AreWords64 p.word64List ∧ p.word64List.length = n := by
  simp only [Payload.isWords64, Bool.and_eq_true, beq_iff_eq]
  constructor
  · rintro ⟨h1, h2⟩; exact ⟨⟨h1.trans h2.symm, rfl⟩, h2⟩
  · rintro ⟨⟨h1, -⟩, h2⟩; exact ⟨h1.trans h2, h2⟩

theorem Payload.isBytes_of_are {p : Payload} {bs : List Byte} (h : p.AreBytes bs) : p.isBytes bs.length = true := by
  simp [Payload.isBytes, h.1, h.2]

theorem Payload.isWords32_of_are {p : Payload} {ws : List Word32} (h : p.AreWords32 ws) :
    p.isWords32 ws.length = true := by
  simp [Payload.isWords32, h.1, h.2]

theorem Payload.isWords64_of_are {p : Payload} {ws : List Word64} (h : p.AreWords64 ws) :
    p.isWords64 ws.length = true := by
  simp [Payload.isWords64, h.1, h.2]

end Sys2Proof.Machine
end

