-- ==== Sys2Proof/Laws/Exec.lean ====
section
/-! SUPPORT. What every meaning can do, said once over all instructions. -/

namespace Sys2Proof.Machine

/-- `rule_of(op)` of 30_encoding.md R70 as a pure function of the admitted command (10_state.md R20): the response each
meaning gives, with no state in it. -/
def ruleOf (i : Instr) (c : Command) : Response :=
  match i with
  | .makeBooleanW32 => .ok (resBool (c.opA32.getLsbD 31)) .empty
  | .makeBooleanW64 => .ok (resBool (c.opA.getLsbD 63)) .empty
  | .extractLo => .ok (resWord32 (loHalf c.opA)) .empty
  | .extractHi => .ok (resWord32 (hiHalf c.opA)) .empty
  | .makeLongHl => .ok (joinHalves c.opA32 c.opB32) .empty
  | .makeIntFold => .ok (resWord32 (loHalf c.opA ^^^ hiHalf c.opA)) .empty
  | .makeByteArrayW32 => .ok 0#64 (.ofBytes (le4 c.opA32))
  | .makeByteArrayW64 => .ok 0#64 (.ofBytes (le8 c.opA))
  | .makeByteArrayA32 _ => .ok 0#64 (.ofBytes (leSeq4 c.input.word32List))
  | .makeByteArrayA64 _ => .ok 0#64 (.ofBytes (leSeq8 c.input.word64List))
  | .makeIntBytes _ =>
    match parseWord32 c.input.byteList with
    | some w => .ok (resWord32 w) .empty
    | none => .err .invalidLength
  | .makeLongBytes _ =>
    match parseWord64 c.input.byteList with
    | some w => .ok w .empty
    | none => .err .invalidLength
  | .makeIntArray len =>
    if len % 4 ≠ 0 then .err .invalidLength else .ok 0#64 (.ofWords32 (parseSeq4 c.input.byteList))
  | .makeLongArray len =>
    if len % 8 ≠ 0 then .err .invalidLength else .ok 0#64 (.ofWords64 (parseSeq8 c.input.byteList))
  | .makeDoubleW64 => .ok (bin64Exact (c.opA >>> 11).toNat 53) .empty
  | .makeDoubleW32x2 => .ok (bin64Exact (joinTop53 c.opA32 c.opB32).toNat 53) .empty
  | .makeFloatW32 => .ok (resWord32 (bin32Exact (c.opA32 >>> 8).toNat 24)) .empty
  | .makeDoubleOpenW64 => .ok (f64SubOne (openPattern c.opA)) .empty
  | .makeDoubleOpenW32x2 => .ok (f64SubOne (openPattern (joinHalves c.opA32 c.opB32))) .empty

/-- A meaning is admission, and then its one response. -/
theorem exec_eq_whenAdmitted (i : Instr) (s : State) :
    exec i s = whenAdmitted i s (fun c => .next (s.respond (ruleOf i c))) := by
  cases i
  case makeIntBytes len =>
    simp only [exec, execMakeIntBytes, ruleOf]; congr 1; funext c; cases parseWord32 c.input.byteList <;> rfl
  case makeLongBytes len =>
    simp only [exec, execMakeLongBytes, ruleOf]; congr 1; funext c; cases parseWord64 c.input.byteList <;> rfl
  case makeIntArray len => simp only [exec, execMakeIntArray, ruleOf]; congr 1; funext c; split <;> rfl
  case makeLongArray len => simp only [exec, execMakeLongArray, ruleOf]; congr 1; funext c; split <;> rfl
  all_goals rfl

/-- An admitted command gets the response of its rule. -/
theorem exec_admitted {i : Instr} {s : State} {c : Command} (h : s.phase = .busy c)
    (hm : payloadMatches i c.input = true) (hb : boundedBytes i ≤ s.maxBytes) :
    exec i s = .next (s.respond (ruleOf i c)) := by
  rw [exec_eq_whenAdmitted, whenAdmitted_rule h hm ((overMaxBytes_eq_false i s.maxBytes).2 hb)]

/-- A scalar response is sound. -/
theorem Response.sound_scalar (maxBytes : Nat) (res : Word64) : (Response.ok res .empty).Sound maxBytes :=
  ⟨fun h => absurd rfl h, rfl, Nat.zero_le _⟩

/-- The response to an admitted command is sound. -/
theorem ruleOf_sound {i : Instr} {c : Command} {maxBytes : Nat} (hm : payloadMatches i c.input = true)
    (hb : boundedBytes i ≤ maxBytes) : (ruleOf i c).Sound maxBytes := by
  cases i
  case makeByteArrayW32 => exact ⟨fun _ => rfl, by simp, by simp [Config.minMaxBytes]⟩
  case makeByteArrayW64 => exact ⟨fun _ => rfl, by simp, by simp [Config.minMaxBytes]⟩
  case makeByteArrayA32 len =>
    have hl := ((Payload.isWords32_iff c.input len).1 hm).2
    have hb : 4 * len ≤ maxBytes := hb
    refine ⟨fun _ => rfl, by simp, ?_⟩
    simp only [Payload.byteSize_ofBytes, length_leSeq4]
    omega
  case makeByteArrayA64 len =>
    have hl := ((Payload.isWords64_iff c.input len).1 hm).2
    have hb : 8 * len ≤ maxBytes := hb
    refine ⟨fun _ => rfl, by simp, ?_⟩
    simp only [Payload.byteSize_ofBytes, length_leSeq8]
    omega
  case makeIntBytes len =>
    simp only [ruleOf]
    split
    · exact Response.sound_scalar _ _
    · trivial
  case makeLongBytes len =>
    simp only [ruleOf]
    split
    · exact Response.sound_scalar _ _
    · trivial
  case makeIntArray len =>
    have hl := ((Payload.isBytes_iff c.input len).1 hm).2
    have hb : len ≤ maxBytes := hb
    simp only [ruleOf]
    split
    · trivial
    · refine ⟨fun _ => rfl, by simp, ?_⟩
      simp only [Payload.byteSize_ofWords32, length_parseSeq4]
      omega
  case makeLongArray len =>
    have hl := ((Payload.isBytes_iff c.input len).1 hm).2
    have hb : len ≤ maxBytes := hb
    simp only [ruleOf]
    split
    · trivial
    · refine ⟨fun _ => rfl, by simp, ?_⟩
      simp only [Payload.byteSize_ofWords64, length_parseSeq8]
      omega
  all_goals exact Response.sound_scalar _ _

/-- Everything the core's turn can do. -/
theorem coreTurn_cases (s : State) :
    (coreTurn s = .next s ∧ ∀ c, s.phase ≠ .busy c) ∨
    ∃ c, s.phase = .busy c ∧
      (coreTurn s = .next s.refuse ∨ ∃ r : Response, coreTurn s = .next (s.respond r) ∧ r.Sound s.maxBytes) := by
  unfold coreTurn
  split
  case h_1 c h =>
    refine .inr ⟨c, h, ?_⟩
    unfold execCommand
    split
    · rename_i i _
      rw [exec_eq_whenAdmitted i s]
      obtain ⟨-, hn⟩ | ⟨d, -, hd | ⟨hd, hm, hb⟩⟩ := whenAdmitted_cases i s (fun c => .next (s.respond (ruleOf i c)))
      · exact absurd h (hn c)
      · exact .inl hd
      · exact .inr ⟨ruleOf i d, hd, ruleOf_sound hm hb⟩
    · exact .inl rfl
  all_goals exact .inl ⟨rfl, by simp_all⟩

end Sys2Proof.Machine
end

