-- ==== Sys2Proof/Laws/Ieee.lean ====
section
/-! SUPPORT. The fields of the patterns Bin64Exact and Bin32Exact make (00_scope.md R15, R16). -/

namespace Sys2Proof.Machine

/-- The leading 1 of m: `2^e <= m < 2^(e+1)` for e = floor(log2(m)). -/
theorem log2_bounds {m : Nat} (h : m ≠ 0) : 2 ^ m.log2 ≤ m ∧ m < 2 * 2 ^ m.log2 := by
  refine ⟨Nat.log2_self_le h, ?_⟩
  have := Nat.lt_log2_self (n := m)
  rwa [Nat.pow_succ, Nat.mul_comm] at this

@[simp] theorem bin64Exact_zero (k : Nat) : bin64Exact 0 k = 0#64 := rfl
@[simp] theorem bin32Exact_zero (k : Nat) : bin32Exact 0 k = 0#32 := rfl

/-- The pattern of a nonzero m as a number: the biased exponent above the fraction. -/
theorem bin64Exact_toNat {m k : Nat} (h0 : m ≠ 0) (hm : m < 2 ^ 53) (hk : k ≤ 1022) :
    (bin64Exact m k).toNat = (1023 + m.log2 - k) * 2 ^ 52 + (m - 2 ^ m.log2) * 2 ^ (52 - m.log2) := by
  obtain ⟨h1, h2⟩ := log2_bounds h0
  have hl : m.log2 < 53 := (Nat.log2_lt h0).2 hm
  have hp : 2 ^ m.log2 * 2 ^ (52 - m.log2) = 2 ^ 52 := by rw [← Nat.pow_add]; congr 1; omega
  have hf : (m - 2 ^ m.log2) * 2 ^ (52 - m.log2) < 2 ^ 52 := by
    rw [← hp]; exact Nat.mul_lt_mul_of_pos_right (by omega) (Nat.two_pow_pos _)
  simp only [bin64Exact, h0, if_false, BitVec.toNat_append, BitVec.toNat_ofNat, Nat.shiftLeft_eq,
    Nat.mod_eq_of_lt hf, Nat.mod_eq_of_lt (show 1023 + m.log2 - k < 2 ^ 11 by omega)]
  rw [← Nat.shiftLeft_eq, ← Nat.shiftLeft_add_eq_or_of_lt hf]
  simp [Nat.shiftLeft_eq]

theorem bin32Exact_toNat {m k : Nat} (h0 : m ≠ 0) (hm : m < 2 ^ 24) (hk : k ≤ 126) :
    (bin32Exact m k).toNat = (127 + m.log2 - k) * 2 ^ 23 + (m - 2 ^ m.log2) * 2 ^ (23 - m.log2) := by
  obtain ⟨h1, h2⟩ := log2_bounds h0
  have hl : m.log2 < 24 := (Nat.log2_lt h0).2 hm
  have hp : 2 ^ m.log2 * 2 ^ (23 - m.log2) = 2 ^ 23 := by rw [← Nat.pow_add]; congr 1; omega
  have hf : (m - 2 ^ m.log2) * 2 ^ (23 - m.log2) < 2 ^ 23 := by
    rw [← hp]; exact Nat.mul_lt_mul_of_pos_right (by omega) (Nat.two_pow_pos _)
  simp only [bin32Exact, h0, if_false, BitVec.toNat_append, BitVec.toNat_ofNat, Nat.shiftLeft_eq,
    Nat.mod_eq_of_lt hf, Nat.mod_eq_of_lt (show 127 + m.log2 - k < 2 ^ 8 by omega)]
  rw [← Nat.shiftLeft_eq, ← Nat.shiftLeft_add_eq_or_of_lt hf]
  simp [Nat.shiftLeft_eq]

end Sys2Proof.Machine
end

