-- ==== Sys2Proof/Laws/Step.lean ====
section
/-! SUPPORT. Everything one step can do (10_state.md R22, R27 to R30), said once; every invariant is derived from this. -/

namespace Sys2Proof.Machine

/-- A step is the core's turn on the state with a schedule, or one enabled move of the host, or Reset. -/
theorem step_cases (s : State) :
    (∃ rest, step s = coreTurn { s with schedule := rest }) ∨
    (∃ rest, step s = .next { s.resetEvent with schedule := rest }) ∨
    (∃ c rest, s.phase = .idle ∧ step s = .next { s.capture c with schedule := rest }) ∨
    (∃ r rest, s.phase = .done r ∧ step s = .next { s.handOver r with schedule := rest }) := by
  unfold step advance
  split
  · exact .inl ⟨s.schedule, rfl⟩
  · exact .inl ⟨_, rfl⟩
  · exact .inr (.inl ⟨_, rfl⟩)
  · rename_i c rest _
    split
    · rename_i t ht
      obtain ⟨hp, rfl⟩ := issue_eq_some ht
      exact .inr (.inr (.inl ⟨c, rest, hp, rfl⟩))
    · exact .inl ⟨s.schedule, rfl⟩
  · rename_i rest _
    split
    · rename_i t ht
      obtain ⟨r, hp, rfl⟩ := take_eq_some ht
      exact .inr (.inr (.inr ⟨r, rest, hp, rfl⟩))
    · exact .inl ⟨s.schedule, rfl⟩

end Sys2Proof.Machine
end

