-- ==== Sys2Proof/Tests/Slice0.lean ====
section
/-! SUPPORT. The model's own tests. A decode test's word is written out field by field as LEN, RSVD, UNIT, FN from
30_encoding.md R60 and R64. An execution test's expected response is a vector of 95_test_vectors.md part 2 or a corner
case of the rule it names. A witness theorem shows a state and operands that meet the hypotheses of the obligation it
is named after, clause by clause. -/

namespace Sys2Proof.Tests

open Sys2Proof.Machine

/-- A core that has just been issued `c`, with nothing scheduled: its next step is Execute. -/
def busy (c : Command) : State := State.reset.capture c

/-- The response one step gives to `c`. -/
def answer (c : Command) : Option Response := responseOf (step (busy c))

/-- The phase and REFUSED after one step from `s`. -/
def after (s : State) : Option (Phase × Bool) :=
  match step s with
  | .next t => some (t.phase, t.refusedMark)
  | .fault _ => none
  | .refused _ => none

/-- A scalar command. -/
def word (cmd a b : Word64) : Command := ⟨cmd, a, b, .empty⟩

/-! ### Well-formedness (R61) -/

theorem test_wellformed_accepts_largest_len : (Instr.makeIntArray (2 ^ 32 - 1)).WellFormed := by decide
theorem test_wellformed_refuses_len_over_32_bits : ¬ (Instr.makeIntArray (2 ^ 32)).WellFormed := by decide

/-! ### Decoding -/

theorem test_decode_makeBooleanW32 : decode (0x00000000#32 ++ 0x000000#24 ++ 0x0#4 ++ 0x0#4) = .op .makeBooleanW32 := by decide
theorem test_decode_makeBooleanW64 : decode (0x00000000#32 ++ 0x000000#24 ++ 0x0#4 ++ 0x1#4) = .op .makeBooleanW64 := by decide
theorem test_decode_extractLo : decode (0x00000000#32 ++ 0x000000#24 ++ 0x1#4 ++ 0x0#4) = .op .extractLo := by decide
theorem test_decode_extractHi : decode (0x00000000#32 ++ 0x000000#24 ++ 0x1#4 ++ 0x1#4) = .op .extractHi := by decide
theorem test_decode_makeLongHl : decode (0x00000000#32 ++ 0x000000#24 ++ 0x1#4 ++ 0x2#4) = .op .makeLongHl := by decide
theorem test_decode_makeIntFold : decode (0x00000000#32 ++ 0x000000#24 ++ 0x1#4 ++ 0x3#4) = .op .makeIntFold := by decide
theorem test_decode_makeByteArrayW32 : decode (0x00000000#32 ++ 0x000000#24 ++ 0x2#4 ++ 0x0#4) = .op .makeByteArrayW32 := by decide
theorem test_decode_makeByteArrayW64 : decode (0x00000000#32 ++ 0x000000#24 ++ 0x2#4 ++ 0x1#4) = .op .makeByteArrayW64 := by decide
theorem test_decode_makeDoubleW64 : decode (0x00000000#32 ++ 0x000000#24 ++ 0x4#4 ++ 0x0#4) = .op .makeDoubleW64 := by decide
theorem test_decode_makeDoubleW32x2 : decode (0x00000000#32 ++ 0x000000#24 ++ 0x4#4 ++ 0x1#4) = .op .makeDoubleW32x2 := by decide
theorem test_decode_makeFloatW32 : decode (0x00000000#32 ++ 0x000000#24 ++ 0x4#4 ++ 0x2#4) = .op .makeFloatW32 := by decide
theorem test_decode_makeDoubleOpenW64 : decode (0x00000000#32 ++ 0x000000#24 ++ 0x5#4 ++ 0x0#4) = .op .makeDoubleOpenW64 := by decide
theorem test_decode_makeDoubleOpenW32x2 : decode (0x00000000#32 ++ 0x000000#24 ++ 0x5#4 ++ 0x1#4) = .op .makeDoubleOpenW32x2 := by decide
theorem test_decode_makeByteArrayA32 : decode (0x00000002#32 ++ 0x000000#24 ++ 0x2#4 ++ 0x2#4) = .op (.makeByteArrayA32 2) := by decide
theorem test_decode_makeByteArrayA64 : decode (0x00000002#32 ++ 0x000000#24 ++ 0x2#4 ++ 0x3#4) = .op (.makeByteArrayA64 2) := by decide
theorem test_decode_makeIntBytes : decode (0x00000004#32 ++ 0x000000#24 ++ 0x3#4 ++ 0x0#4) = .op (.makeIntBytes 4) := by decide
theorem test_decode_makeLongBytes : decode (0x00000008#32 ++ 0x000000#24 ++ 0x3#4 ++ 0x1#4) = .op (.makeLongBytes 8) := by decide
theorem test_decode_makeIntArray : decode (0x00000008#32 ++ 0x000000#24 ++ 0x3#4 ++ 0x2#4) = .op (.makeIntArray 8) := by decide
theorem test_decode_makeLongArray : decode (0xFFFFFFFF#32 ++ 0x000000#24 ++ 0x3#4 ++ 0x3#4) = .op (.makeLongArray 4294967295) := by decide

-- 95_test_vectors.md part 2.7
theorem test_decode_unassigned_fn : decode 0x0000000000000014#64 = .reserved .unassignedOpcode := by decide
theorem test_decode_unassigned_unit : decode 0x0000000000000060#64 = .reserved .unassignedOpcode := by decide
theorem test_decode_rsvd : decode 0x0000000000000100#64 = .reserved .rsvdNonzero := by decide
theorem test_decode_scalar_with_len : decode 0x0000000100000040#64 = .reserved .scalarLenNonzero := by decide
-- 30_encoding.md R73
theorem test_encode_example : encode (.makeIntBytes 4) = 0x0000000400000030#64 := by decide
theorem test_decodeTableWord_full : decodeTableWord 64 0x13 = some .makeIntFold := by decide
theorem test_decodeTableWord_short_row : decodeTableWord 32 0x32 = some (.makeIntArray 0) := by decide

/-! ### Execution, 95_test_vectors.md parts 2.1 to 2.6 -/

theorem test_makeBooleanW32_bit31 : answer (word 0x00 0x0000000080000000 0) = some (.ok 1 .empty) := by decide
theorem test_makeBooleanW32_ignores_high_half : answer (word 0x00 0xFFFFFFFF00000000 0)
    = some (.ok 0 .empty) := by decide
theorem test_makeBooleanW64_bit63 : answer (word 0x01 0x8000000000000000 0) = some (.ok 1 .empty) := by decide
theorem test_makeBooleanW64_not_bit31 : answer (word 0x01 0x0000000080000000 0) = some (.ok 0 .empty) := by decide
theorem test_extractLo_no_sign_extension : answer (word 0x10 0x00000000FFFFFFFF 0)
    = some (.ok 0x00000000FFFFFFFF .empty) := by decide
theorem test_extractLo_word : answer (word 0x10 0x0123456789ABCDEF 0) = some (.ok 0x89ABCDEF .empty) := by decide
theorem test_extractHi_logical : answer (word 0x11 0x8000000000000000 0) = some (.ok 0x80000000 .empty) := by decide
theorem test_extractHi_word : answer (word 0x11 0x0123456789ABCDEF 0) = some (.ok 0x01234567 .empty) := by decide
theorem test_makeLongHl_lo_bit31 : answer (word 0x12 0 0x80000000) = some (.ok 0x80000000 .empty) := by decide
theorem test_makeLongHl_upper_halves_ignored : answer (word 0x12 0xDEADBEEF00000001 0xCAFEBABE00000002)
    = some (.ok 0x0000000100000002 .empty) := by decide
theorem test_makeIntFold_source : answer (word 0x13 0xFFFFFFFF00000000 0) = some (.ok 0xFFFFFFFF .empty) := by decide
theorem test_makeIntFold_word : answer (word 0x13 0x0123456789ABCDEF 0) = some (.ok 0x88888888 .empty) := by decide
theorem test_makeByteArrayW32_bytes : answer (word 0x20 0xFFFFFFFFAABBCCDD 0)
    = some (.ok 0 (.bytes [0xDD, 0xCC, 0xBB, 0xAA])) := by decide
theorem test_makeByteArrayW64_bytes : answer (word 0x21 0x0123456789ABCDEF 0)
    = some (.ok 0 (.bytes [0xEF, 0xCD, 0xAB, 0x89, 0x67, 0x45, 0x23, 0x01])) := by decide
theorem test_makeByteArrayA32_empty : answer (word 0x22 0 0) = some (.ok 0 .empty) := by decide
theorem test_makeByteArrayA32_words : answer ⟨0x0000000200000022, 0, 0, .words32 [0x00000001, 0x80000000]⟩
    = some (.ok 0 (.bytes [0x01, 0x00, 0x00, 0x00, 0x00, 0x00, 0x00, 0x80])) := by decide
theorem test_makeByteArrayA64_words : answer ⟨0x0000000200000023, 0, 0, .words64 [0x0000000000000001, 0xFF00000000000000]⟩
    = some (.ok 0 (.bytes
      [0x01, 0x00, 0x00, 0x00, 0x00, 0x00, 0x00, 0x00, 0x00, 0x00, 0x00, 0x00, 0x00, 0x00, 0x00, 0xFF])) := by decide
theorem test_makeByteArrayA64_one_word : answer ⟨0x0000000100000023, 0, 0, .words64 [0x0123456789ABCDEF]⟩
    = some (.ok 0 (.bytes [0xEF, 0xCD, 0xAB, 0x89, 0x67, 0x45, 0x23, 0x01])) := by decide
theorem test_makeIntBytes_word : answer ⟨0x0000000400000030, 0, 0, .bytes [0x78, 0x56, 0x34, 0x12]⟩
    = some (.ok 0x12345678 .empty) := by decide
theorem test_makeIntBytes_eight_bytes_rejected : answer ⟨0x0000000800000030, 0, 0, .bytes [1, 2, 3, 4, 5, 6, 7, 8]⟩
    = some (.err .invalidLength) := by decide
theorem test_makeLongBytes_word : answer ⟨0x0000000800000031, 0, 0, .bytes [0xEF, 0xCD, 0xAB, 0x89, 0x67, 0x45, 0x23, 0x01]⟩
    = some (.ok 0x0123456789ABCDEF .empty) := by decide
theorem test_makeLongBytes_zero_length_rejected : answer (word 0x31 0 0) = some (.err .invalidLength) := by decide
theorem test_makeIntArray_words : answer ⟨0x0000000800000032, 0, 0, .bytes [0xEF, 0xCD, 0xAB, 0x89, 0x67, 0x45, 0x23, 0x01]⟩
    = some (.ok 0 (.words32 [0x89ABCDEF, 0x01234567])) := by decide
theorem test_makeIntArray_no_partial_array : answer ⟨0x0000000500000032, 0, 0, .bytes [1, 2, 3, 4, 5]⟩
    = some (.err .invalidLength) := by decide
theorem test_makeLongArray_words : answer ⟨0x0000001000000033, 0, 0, .bytes [0x01, 0, 0, 0, 0, 0, 0, 0, 0, 0, 0, 0, 0, 0, 0, 0xFF]⟩
    = some (.ok 0 (.words64 [0x0000000000000001, 0xFF00000000000000])) := by decide
theorem test_makeLongArray_twelve_rejected : answer ⟨0x0000000C00000033, 0, 0, .bytes [1, 2, 3, 4, 5, 6, 7, 8, 9, 10, 11, 12]⟩
    = some (.err .invalidLength) := by decide
theorem test_makeDoubleW64_smallest : answer (word 0x40 0x800 0) = some (.ok 0x3CA0000000000000 .empty) := by decide
theorem test_makeDoubleW64_word : answer (word 0x40 0x123456789ABCDEF0 0)
    = some (.ok 0x3FB23456789ABCD8 .empty) := by decide
theorem test_makeDoubleW32x2_lowest_kept_bits : answer (word 0x41 0x40 0x20)
    = some (.ok 0x3E50000002000000 .empty) := by decide
theorem test_makeDoubleW32x2_words : answer (word 0x41 0x12345678 0x9ABCDEF0)
    = some (.ok 0x3FB2345666AF37B8 .empty) := by decide
theorem test_makeFloatW32_all_ones : answer (word 0x42 0xFFFFFFFF 0) = some (.ok 0x3F7FFFFF .empty) := by decide
theorem test_makeFloatW32_word : answer (word 0x42 0x12345678 0) = some (.ok 0x3D91A2B0 .empty) := by decide
theorem test_makeDoubleOpenW64_zero : answer (word 0x50 0 0) = some (.ok 0x3CB0000000000000 .empty) := by decide
theorem test_makeDoubleOpenW64_word : answer (word 0x50 0x123456789ABCDEF0 0)
    = some (.ok 0x3FB23456789ABCD0 .empty) := by decide
theorem test_makeDoubleOpenW32x2_lo_top_bits : answer (word 0x51 0 0x80000000)
    = some (.ok 0x3DE0000200000000 .empty) := by decide
theorem test_makeDoubleOpenW32x2_all_ones : answer (word 0x51 0xFFFFFFFF 0xFFFFFFFF)
    = some (.ok 0x3FEFFFFFFFFFFFFE .empty) := by decide

/-! ### Refusal and the handshake (95_test_vectors.md parts 2.7 and 3, P4) -/

theorem test_reserved_refused : after (busy (word 0x14 0 0)) = some (.refused, true) := by decide
theorem test_payload_shorter_than_len_refused :
    after (busy ⟨0x0000000400000030, 0, 0, .bytes [1, 2, 3]⟩) = some (.refused, true) := by decide
theorem test_reset_drops_held_command :
    after { busy (word 0x01 0x8000000000000000 0) with schedule := [.reset] } = some (.idle, false) := by decide
theorem test_reset_keeps_refused_mark :
    after { State.reset with phase := .refused, refusedMark := true, schedule := [.reset] } = some (.idle, true) := by
  decide
theorem test_dropped_command_is_awaited :
    (match step { busy (word 0x01 0 0) with schedule := [.reset] } with
      | .next t => (t.schedule == [] && t.awaiting && t.phase == .idle)
      | .fault _ => false
      | .refused _ => false) = true := by decide
theorem test_take_empties_phase :
    after { State.reset with phase := .done (.err .invalidLength), schedule := [.take] } = some (.idle, false) := by
  decide
theorem test_placed_word_runs :
    responseOf (step (State.reset.withFetchWord 64 0x50)) = some (.ok 0x3CB0000000000000 .empty) := by decide
theorem test_placed_sequence_runs :
    responseOf (step (State.reset.withFetchWord 64 0x0000000400000030)) = some (.ok 0 .empty) := by decide
theorem test_pins_of_error : (Response.err .invalidLength).pins = (1, 0, .empty) := by decide
theorem test_assemble_pair : assemble (.makeLongHl 0x01234567 0x89ABCDEF) = ⟨0x12, 0x01234567, 0x89ABCDEF, .empty⟩ := by
  decide
theorem test_assemble_items :
    assemble (.makeIntBytes [0x01, 0x02, 0x03, 0x04]) = ⟨0x0000000400000030, 0, 0, .bytes [1, 2, 3, 4]⟩ := by decide

/-! ### Witnesses: completion statements of the scalar commands -/

/-- A scalar command held with REFUSED false and no payload. -/
theorem holds_word (cmd a b : Word64) : (busy (word cmd a b)).Holds (word cmd a b) ∧ (word cmd a b).input.length = 0 :=
  ⟨⟨rfl, rfl⟩, rfl⟩

theorem witness_MakeBooleanW32GivesBit31 :
    (busy (word 0x00 0x80000000 0)).Holds (word 0x00 0x80000000 0) ∧ (word 0x00 0x80000000 0).input.length = 0 := holds_word _ _ _
theorem witness_MakeBooleanW64GivesBit63 :
    (busy (word 0x01 0x8000000000000000 0)).Holds (word 0x01 0x8000000000000000 0) ∧ (word 0x01 0x8000000000000000 0).input.length = 0 := holds_word _ _ _
theorem witness_ExtractLoGivesLowHalf :
    (busy (word 0x10 0xFFFFFFFFFFFFFFFF 0)).Holds (word 0x10 0xFFFFFFFFFFFFFFFF 0) ∧ (word 0x10 0xFFFFFFFFFFFFFFFF 0).input.length = 0 := holds_word _ _ _
theorem witness_ExtractHiGivesHighHalf :
    (busy (word 0x11 0xFFFFFFFF00000000 0)).Holds (word 0x11 0xFFFFFFFF00000000 0) ∧ (word 0x11 0xFFFFFFFF00000000 0).input.length = 0 := holds_word _ _ _
theorem witness_MakeLongHlJoinsHalves :
    (busy (word 0x12 1 0xFFFFFFFF)).Holds (word 0x12 1 0xFFFFFFFF) ∧ (word 0x12 1 0xFFFFFFFF).input.length = 0 := holds_word _ _ _
theorem witness_MakeIntFoldXorsHalves :
    (busy (word 0x13 0xFFFFFFFF00000000 0)).Holds (word 0x13 0xFFFFFFFF00000000 0) ∧ (word 0x13 0xFFFFFFFF00000000 0).input.length = 0 := holds_word _ _ _
theorem witness_MakeByteArrayW32GivesBytes :
    (busy (word 0x20 0x12345678 0)).Holds (word 0x20 0x12345678 0) ∧ (word 0x20 0x12345678 0).input.length = 0 := holds_word _ _ _
theorem witness_MakeByteArrayW64GivesBytes :
    (busy (word 0x21 0x8000000000000000 0)).Holds (word 0x21 0x8000000000000000 0) ∧ (word 0x21 0x8000000000000000 0).input.length = 0 := holds_word _ _ _
theorem witness_MakeDoubleW64ScalesTop53Bits :
    (busy (word 0x40 0x800 0)).Holds (word 0x40 0x800 0) ∧ (word 0x40 0x800 0).input.length = 0 := holds_word _ _ _
theorem witness_MakeDoubleW32x2ScalesTop26And27Bits :
    (busy (word 0x41 0x40 0x20)).Holds (word 0x41 0x40 0x20) ∧ (word 0x41 0x40 0x20).input.length = 0 := holds_word _ _ _
theorem witness_MakeFloatW32ScalesTop24Bits :
    (busy (word 0x42 0x100 0)).Holds (word 0x42 0x100 0) ∧ (word 0x42 0x100 0).input.length = 0 := holds_word _ _ _
theorem witness_MakeDoubleOpenW64SubtractsOne :
    (busy (word 0x50 0 0)).Holds (word 0x50 0 0) ∧ (word 0x50 0 0).input.length = 0 := holds_word _ _ _
theorem witness_MakeDoubleOpenW32x2IsOpenOfJoin :
    (busy (word 0x51 0xFFFFFFFF 0xFFFFFFFF)).Holds (word 0x51 0xFFFFFFFF 0xFFFFFFFF) ∧ (word 0x51 0xFFFFFFFF 0xFFFFFFFF).input.length = 0 := holds_word _ _ _

/-! ### Witnesses: completion statements of the sequence commands, with the clauses' boundary values -/

/-- A sequence command. -/
def seq (cmd : Word64) (p : Payload) : Command := ⟨cmd, 0, 0, p⟩

/-- A byte sequence held by a core of the least MAX_BYTES. -/
def smallCore (cmd : Word64) (bs : List Byte) : State :=
  { State.reset with maxBytes := 8, phase := .busy (seq cmd (.ofBytes bs)) }

theorem witness_MakeByteArrayA32GivesBytes :
    (2 ^ 32 - 1 < 2 ^ 32) ∧
    ((busy (seq 0x22 .empty)).Holds (seq 0x22 .empty) ∧ (seq 0x22 .empty).input.AreWords32 [] ∧
      4 * ([] : List Word32).length ≤ (busy (seq 0x22 .empty)).maxBytes) ∧
    ((busy (seq 0x22 (.words32 [1, 2]))).Holds (seq 0x22 (.words32 [1, 2])) ∧
      (seq 0x22 (.words32 [1, 2])).input.AreWords32 [1, 2] ∧
      4 * ([1, 2] : List Word32).length ≤ (busy (seq 0x22 (.words32 [1, 2]))).maxBytes ∧ 7 < 4 * 2) ∧
    ((smallCore 0x22 []).phase = .busy (seq 0x22 (.ofBytes [])) ∧ (smallCore 0x22 []).maxBytes < 4 * 3) := by decide

theorem witness_MakeByteArrayA64GivesBytes :
    (2 ^ 32 - 1 < 2 ^ 32) ∧
    ((busy (seq 0x23 (.words64 []))).Holds (seq 0x23 (.words64 [])) ∧ (seq 0x23 (.words64 [])).input.AreWords64 [] ∧
      8 * ([] : List Word64).length ≤ (busy (seq 0x23 (.words64 []))).maxBytes) ∧
    ((busy (seq 0x23 (.words64 [1, 2]))).Holds (seq 0x23 (.words64 [1, 2])) ∧
      (seq 0x23 (.words64 [1, 2])).input.AreWords64 [1, 2] ∧
      8 * ([1, 2] : List Word64).length ≤ (busy (seq 0x23 (.words64 [1, 2]))).maxBytes ∧ 15 < 8 * 2) ∧
    ((smallCore 0x23 []).phase = .busy (seq 0x23 (.ofBytes [])) ∧ (smallCore 0x23 []).maxBytes < 8 * 2) := by decide

theorem smallCore_holds (cmd : Word64) (bs : List Byte) (h : bs.length ≤ 8) :
    (smallCore cmd bs).Holds (seq cmd (.ofBytes bs)) ∧ (seq cmd (.ofBytes bs)).input.AreBytes bs ∧
      bs.length ≤ (smallCore cmd bs).maxBytes :=
  ⟨⟨rfl, rfl⟩, ⟨Payload.length_ofBytes bs, Payload.byteList_ofBytes bs⟩, h⟩

theorem witness_MakeIntBytesParsesFourBytes :
    (2 ^ 32 - 1 < 2 ^ 32) ∧
    ((smallCore 0x30 [1, 2, 3, 4]).Holds (seq 0x30 (.ofBytes [1, 2, 3, 4])) ∧
      (seq 0x30 (.ofBytes [1, 2, 3, 4])).input.AreBytes [1, 2, 3, 4] ∧ 4 ≤ (smallCore 0x30 [1, 2, 3, 4]).maxBytes) ∧
    ((smallCore 0x30 []).Holds (seq 0x30 (.ofBytes [])) ∧ (seq 0x30 (.ofBytes [])).input.AreBytes [] ∧
      ([] : List Byte).length ≤ (smallCore 0x30 []).maxBytes ∧ ([] : List Byte).length ≠ 4) ∧
    ([1, 2, 3] : List Byte).length ≠ 4 ∧ ([1, 2, 3, 4, 5] : List Byte).length ≠ 4 := by decide

theorem witness_MakeLongBytesParsesEightBytes :
    (2 ^ 32 - 1 < 2 ^ 32) ∧
    ((smallCore 0x31 [1, 2, 3, 4, 5, 6, 7, 8]).Holds (seq 0x31 (.ofBytes [1, 2, 3, 4, 5, 6, 7, 8])) ∧
      (seq 0x31 (.ofBytes [1, 2, 3, 4, 5, 6, 7, 8])).input.AreBytes [1, 2, 3, 4, 5, 6, 7, 8] ∧
      8 ≤ (smallCore 0x31 [1, 2, 3, 4, 5, 6, 7, 8]).maxBytes) ∧
    ((smallCore 0x31 [1, 2, 3, 4, 5, 6, 7]).Holds (seq 0x31 (.ofBytes [1, 2, 3, 4, 5, 6, 7])) ∧
      (seq 0x31 (.ofBytes [1, 2, 3, 4, 5, 6, 7])).input.AreBytes [1, 2, 3, 4, 5, 6, 7] ∧
      ([1, 2, 3, 4, 5, 6, 7] : List Byte).length ≤ (smallCore 0x31 [1, 2, 3, 4, 5, 6, 7]).maxBytes ∧
      ([1, 2, 3, 4, 5, 6, 7] : List Byte).length ≠ 8) := by decide

theorem witness_MakeIntArrayParsesWords :
    (2 ^ 32 - 1 < 2 ^ 32) ∧
    ((smallCore 0x32 []).Holds (seq 0x32 (.ofBytes [])) ∧ (seq 0x32 (.ofBytes [])).input.AreBytes [] ∧
      ([] : List Byte).length ≤ (smallCore 0x32 []).maxBytes ∧ ([] : List Byte).length % 4 = 0) ∧
    ((smallCore 0x32 [1, 2, 3, 4, 5, 6, 7, 8]).Holds (seq 0x32 (.ofBytes [1, 2, 3, 4, 5, 6, 7, 8])) ∧
      ([1, 2, 3, 4, 5, 6, 7, 8] : List Byte).length % 4 = 0 ∧ 1 < ([1, 2, 3, 4, 5, 6, 7, 8] : List Byte).length / 4) ∧
    ((smallCore 0x32 [1, 2, 3, 4, 5]).Holds (seq 0x32 (.ofBytes [1, 2, 3, 4, 5])) ∧
      (seq 0x32 (.ofBytes [1, 2, 3, 4, 5])).input.AreBytes [1, 2, 3, 4, 5] ∧
      ([1, 2, 3, 4, 5] : List Byte).length ≤ (smallCore 0x32 [1, 2, 3, 4, 5]).maxBytes ∧
      ([1, 2, 3, 4, 5] : List Byte).length % 4 ≠ 0) := by decide

theorem witness_MakeLongArrayParsesWords :
    (2 ^ 32 - 1 < 2 ^ 32) ∧
    ((smallCore 0x33 [1, 2, 3, 4, 5, 6, 7, 8]).Holds (seq 0x33 (.ofBytes [1, 2, 3, 4, 5, 6, 7, 8])) ∧
      (seq 0x33 (.ofBytes [1, 2, 3, 4, 5, 6, 7, 8])).input.AreBytes [1, 2, 3, 4, 5, 6, 7, 8] ∧
      ([1, 2, 3, 4, 5, 6, 7, 8] : List Byte).length ≤ (smallCore 0x33 [1, 2, 3, 4, 5, 6, 7, 8]).maxBytes ∧
      ([1, 2, 3, 4, 5, 6, 7, 8] : List Byte).length % 8 = 0 ∧ 0 < ([1, 2, 3, 4, 5, 6, 7, 8] : List Byte).length / 8) ∧
    ((smallCore 0x33 [1, 2, 3, 4]).Holds (seq 0x33 (.ofBytes [1, 2, 3, 4])) ∧
      (seq 0x33 (.ofBytes [1, 2, 3, 4])).input.AreBytes [1, 2, 3, 4] ∧
      ([1, 2, 3, 4] : List Byte).length ≤ (smallCore 0x33 [1, 2, 3, 4]).maxBytes ∧
      ([1, 2, 3, 4] : List Byte).length % 8 ≠ 0) := by decide

/-! ### Witnesses: the laws -/

theorem witness_ComplementFlipsSignBit :
    State.reset.Safe ∧ (0x123456787FFFFFFF#64).extractLsb' 0 32 = ~~~((0xFFFFFFFF80000000#64).extractLsb' 0 32) := by
  decide
theorem witness_SplitJoinRoundTrip : State.reset.Safe := rfl
theorem witness_HalfOpenZeroSet : State.reset.Safe := rfl
theorem witness_HalfOpenResultsAreUnitInterval :
    State.reset.Safe ∧ 2 ^ 53 - 1 < 2 ^ 53 ∧ 2 ^ 24 - 1 < 2 ^ 24 := by decide
theorem witness_OpenResultsAreOpenInterval :
    State.reset.Safe ∧ 1 % 2 = 1 ∧ 1 < 2 ^ 52 ∧ (2 ^ 52 - 1) % 2 = 1 ∧ 2 ^ 52 - 1 < 2 ^ 52 := by decide
theorem witness_Word64ArraySerialisesAsItsHalves :
    State.reset.Safe ∧ 2 * ([1, 2] : List Word64).length < 2 ^ 32 ∧
      8 * ([1, 2] : List Word64).length ≤ State.reset.maxBytes := by decide
theorem witness_ParseOfSerialiseRoundTrip :
    State.reset.Safe ∧ 8 ≤ State.reset.maxBytes ∧
      4 * ([1, 2] : List Word32).length < 2 ^ 32 ∧ 4 * ([1, 2] : List Word32).length ≤ State.reset.maxBytes ∧
      8 * ([1, 2] : List Word64).length < 2 ^ 32 ∧ 8 * ([1, 2] : List Word64).length ≤ State.reset.maxBytes := by decide
theorem witness_SerialiseOfParseRoundTrip :
    State.reset.Safe ∧ ([1, 2, 3, 4, 5, 6, 7, 8] : List Byte).length < 2 ^ 32 ∧
      ([1, 2, 3, 4, 5, 6, 7, 8] : List Byte).length ≤ State.reset.maxBytes ∧
      ([1, 2, 3, 4] : List Byte).length = 4 ∧ ([1, 2, 3, 4, 5, 6, 7, 8] : List Byte).length = 8 ∧
      ([] : List Byte).length % 4 = 0 ∧ ([] : List Byte).length % 8 = 0 := by decide
theorem witness_Bin64ExactHasExactValue :
    (2 ^ 53 - 1 < 2 ^ 53 ∧ 1 ≤ 1 ∧ 1 ≤ 1022) ∧ (0 < 2 ^ 53 ∧ 1 ≤ 1022 ∧ 1022 ≤ 1022) := by decide
theorem witness_Bin32ExactHasExactValue :
    (2 ^ 24 - 1 < 2 ^ 24 ∧ 1 ≤ 1 ∧ 1 ≤ 126) ∧ (0 < 2 ^ 24 ∧ 1 ≤ 126 ∧ 126 ≤ 126) := by decide
theorem witness_F64SubOneIsExactDifference :
    (0x3FF0000000000001#64).extractLsb' 52 12 = 0x3FF#12 ∧ (0x3FFFFFFFFFFFFFFF#64).extractLsb' 52 12 = 0x3FF#12 := by
  decide

/-! ### Witnesses: operands, status and refusal -/

theorem witness_IgnoredOperandBitsDoNotMatter :
    (word 0 0xFFFFFFFF00000007 3).input = (word 9 7 4).input ∧
    (word 0 0xFFFFFFFF00000007 3).a.extractLsb' 0 32 = (word 9 7 4).a.extractLsb' 0 32 ∧
    (word 0 7 3).a = (word 9 7 4).a ∧
    (word 0 7 0xFFFFFFFF00000003).b.extractLsb' 0 32 = (word 9 7 3).b.extractLsb' 0 32 := by decide

theorem witness_InvalidLengthExactlyOnWrongParseLength :
    ((busy (seq 0x0000000300000030 (.bytes [1, 2, 3]))).Holds (seq 0x0000000300000030 (.bytes [1, 2, 3])) ∧
      decode (seq 0x0000000300000030 (.bytes [1, 2, 3])).cmd = .op (.makeIntBytes 3) ∧
      payloadMatches (.makeIntBytes 3) (seq 0x0000000300000030 (.bytes [1, 2, 3])).input = true ∧
      overMaxBytes (.makeIntBytes 3) (busy (seq 0x0000000300000030 (.bytes [1, 2, 3]))).maxBytes = false) ∧
    ((busy (word 0x50 0 0)).Holds (word 0x50 0 0) ∧ decode (word 0x50 0 0).cmd = .op .makeDoubleOpenW64 ∧
      payloadMatches .makeDoubleOpenW64 (word 0x50 0 0).input = true ∧
      overMaxBytes .makeDoubleOpenW64 (busy (word 0x50 0 0)).maxBytes = false) := by decide

theorem witness_ReservedCommandIsRefused :
    ((busy (word 0x100 0 0)).phase = .busy (word 0x100 0 0) ∧ (word 0x100 0 0).cmd.extractLsb' 8 24 ≠ 0#24) ∧
    ((busy (word 0x14 0 0)).phase = .busy (word 0x14 0 0) ∧
      (word 0x14 0 0).cmd.extractLsb' 0 8 ∉ [0x00#8, 0x01#8, 0x10#8, 0x11#8, 0x12#8, 0x13#8, 0x20#8, 0x21#8, 0x22#8,
        0x23#8, 0x30#8, 0x31#8, 0x32#8, 0x33#8, 0x40#8, 0x41#8, 0x42#8, 0x50#8, 0x51#8]) ∧
    ((busy (word 0x0000000100000040 0 0)).phase = .busy (word 0x0000000100000040 0 0) ∧
      (word 0x0000000100000040 0 0).cmd.extractLsb' 0 8 ∈ [0x00#8, 0x01#8, 0x10#8, 0x11#8, 0x12#8, 0x13#8, 0x20#8,
        0x21#8, 0x40#8, 0x41#8, 0x42#8, 0x50#8, 0x51#8] ∧
      (word 0x0000000100000040 0 0).cmd.extractLsb' 32 32 ≠ 0#32) ∧
    ((busy (word 0x0000000100000022 0 0)).phase = .busy (word 0x0000000100000022 0 0) ∧
      (word 0x0000000100000022 0 0).cmd.extractLsb' 8 24 = 0#24 ∧ (word 0x0000000100000022 0 0).cmd.extractLsb' 0 8 = 0x22#8) := by
  decide

/-- Three bytes are no sequence of any other length and no sequence of words. -/
theorem witness_PayloadMismatchIsRefused :
    (busy (seq 0 (.bytes [1, 2, 3]))).phase = .busy (seq 0 (.bytes [1, 2, 3])) ∧
    (Instr.makeIntFold.format = .S ∧ (seq 0 (.bytes [1, 2, 3])).input.length ≠ 0) ∧
    (∀ ws : List Word32, (seq 0 (.bytes [1, 2, 3])).input.AreWords32 ws → ws.length ≠ 3) ∧
    (∀ ws : List Word64, (seq 0 (.bytes [1, 2, 3])).input.AreWords64 ws → ws.length ≠ 3) ∧
    (∀ bs : List Byte, (seq 0 (.bytes [1, 2, 3])).input.AreBytes bs → bs.length ≠ 4) := by
  refine ⟨rfl, by decide, ?_, ?_, ?_⟩
  · rintro ws ⟨-, rfl⟩; decide
  · rintro ws ⟨-, rfl⟩; decide
  · rintro bs ⟨-, rfl⟩; decide

theorem witness_PayloadOverMaxBytesIsRefused :
    (smallCore 0x30 []).phase = .busy (seq 0x30 (.ofBytes [])) ∧ (smallCore 0x30 []).maxBytes < 4 * 3 ∧
      (smallCore 0x30 []).maxBytes < 8 * 2 ∧ (smallCore 0x30 []).maxBytes < 9 := by decide

/-! ### Witnesses: the handshake -/

theorem witness_IssueCapturesCommandInIdleOnly :
    ({ State.reset with schedule := [.issue (word 0 0 0)] } : State).schedule = .issue (word 0 0 0) :: [] ∧
    ({ State.reset with schedule := [.issue (word 0 0 0)] } : State).phase = .idle ∧
    ({ busy (word 1 0 0) with schedule := [.issue (word 0 0 0)] } : State).phase ≠ .idle := by decide

theorem witness_TakeHandsOverResponseInDoneOnly :
    ({ State.reset with phase := .done (.ok 1 .empty), schedule := [.take] } : State).schedule = .take :: [] ∧
    ({ State.reset with phase := .done (.ok 1 .empty), schedule := [.take] } : State).phase = .done (.ok 1 .empty) ∧
    ({ State.reset with schedule := [.take] } : State).schedule = .take :: [] ∧
    (∀ r, ({ State.reset with schedule := [.take] } : State).phase ≠ .done r) :=
  ⟨rfl, rfl, rfl, fun _ h => nomatch h⟩

theorem witness_ResetEmptiesHandshakeInAnyPhase :
    ({ busy (word 1 0 0) with schedule := [.reset, .take] } : State).schedule = .reset :: [.take] := rfl

theorem witness_StepRunsDecodedInstruction :
    (busy (word 0x13 0 0)).phase = .busy (word 0x13 0 0) ∧ decode (word 0x13 0 0).cmd = .op .makeIntFold ∧
    (busy (word 0x13 0 0)).schedule = [] ∧
    ({ busy (word 0x13 0 0) with schedule := [.execute] } : State).schedule = .execute :: [] ∧
    ({ busy (word 0x13 0 0) with schedule := [.issue (word 0 0 0)] } : State).schedule = .issue (word 0 0 0) :: [] ∧
    ({ busy (word 0x13 0 0) with schedule := [.take] } : State).schedule = .take :: [] := by decide

theorem witness_PlacedWordIsRunNext :
    decodeTableWord 64 0x0000000400000030 = some (.makeIntBytes 4) ∧
      overMaxBytes (.makeIntBytes 4) State.reset.maxBytes = false := by decide

theorem witness_ExecuteEndsInDoneOrRefused : (busy (word 0x14 0 0)).phase = .busy (word 0x14 0 0) := rfl

theorem witness_ExecChangesOnlyPhaseAndMark :
    (∃ t, exec .makeIntFold (busy (word 0x13 0 0)) = .next t ∧ ∃ r, t.phase = .done r) ∧
    (∃ t, exec .makeIntFold (busy (seq 0x13 (.bytes [1]))) = .next t ∧ t.phase = .refused) :=
  ⟨⟨_, rfl, _, rfl⟩, ⟨_, rfl, rfl⟩⟩

/-- Two cores with the same command held and different pasts. -/
theorem witness_AnswerDependsOnCommandAlone :
    ∃ s t u v : State, s ≠ t ∧ s.phase = .busy (word 0x13 5 0) ∧ t.phase = .busy (word 0x13 5 0) ∧
      s.maxBytes = t.maxBytes ∧ coreTurn s = .next u ∧ coreTurn t = .next v :=
  ⟨busy (word 0x13 5 0), { busy (word 0x13 5 0) with taken := [.ok 1 .empty], refusedMark := true }, _, _,
    by decide, rfl, rfl, rfl, rfl, rfl⟩

theorem busy_inv (c : Command) : (busy c).Inv where
  refused_marked h := nomatch h
  busy_awaited _ _ := rfl
  done_awaited _ h := nomatch h
  held_sound _ h := nomatch h
  taken_sound _ h := nomatch h

/-- A step from a state that meets the invariant, into Refused and into Done. -/
theorem witness_RefusedMarkIsPermanent :
    (busy (word 0x14 0 0)).Inv ∧ (∃ t, step (busy (word 0x14 0 0)) = .next t ∧ t.phase = .refused) ∧
    (busy (word 0x13 0 0)).Inv ∧ (∃ t, step (busy (word 0x13 0 0)) = .next t ∧ ∃ r, t.phase = .done r) :=
  ⟨busy_inv _, ⟨_, rfl, rfl⟩, busy_inv _, ⟨_, rfl, _, rfl⟩⟩

theorem witness_StepKeepsInv : (busy (word 0x20 5 0)).Inv ∧ ∃ t, step (busy (word 0x20 5 0)) = .next t :=
  ⟨busy_inv _, _, rfl⟩

theorem witness_UntakenResponseBlocksIssue :
    ({ State.reset with phase := .done (.ok 1 .empty), schedule := [.issue (word 0 0 0)] } : State).phase =
      .done (.ok 1 .empty) ∧
    ({ State.reset with phase := .done (.ok 1 .empty), schedule := [.issue (word 0 0 0)] } : State).schedule =
      .issue (word 0 0 0) :: [] := by decide

/-- Idle with nothing scheduled, Done with Execute scheduled, and Refused with a Reset scheduled and without. -/
theorem witness_CoreTurnOutsideBusyChangesNothing :
    ((∀ c, State.reset.phase ≠ .busy c) ∧ State.reset.schedule = []) ∧
    ((∀ c, (State.reset.respond (.ok 1 .empty)).phase ≠ .busy c) ∧
      ({ State.reset.respond (.ok 1 .empty) with schedule := [.execute] } : State).schedule = .execute :: []) ∧
    ((∀ c, State.reset.refuse.phase ≠ .busy c) ∧ State.reset.refuse.phase = .refused ∧
      (∃ t, step State.reset.refuse = .next t ∧ t.phase = .refused) ∧
      ∃ t, step { State.reset.refuse with schedule := [.reset] } = .next t ∧ t.phase = .idle) :=
  ⟨⟨by simp [State.reset], rfl⟩, ⟨by simp, rfl⟩, by simp, rfl, ⟨_, rfl, rfl⟩, _, rfl, rfl⟩

/-- A core that answers this command answers it so whatever else it holds. -/
theorem signBit_answered (t : State) (ht : t.Holds (word 0x00 0 0)) :
    coreTurn t = .next { t with phase := .done (.ok 0 .empty) } := by
  have hd : decode (word 0x00 0 0).cmd = .op .makeBooleanW32 := by decide
  simp only [coreTurn, ht.1, execCommand, hd, exec, execMakeBooleanW32]
  rw [whenAdmitted_rule ht.1 rfl rfl]
  rfl

/-- From the machine's start: a command dropped by a Reset, and one dropped and issued again. -/
theorem witness_RunWithDroppedLastCommandHasNotEnded :
    State.reset.phase = .idle ∧ State.reset.Safe ∧
    ({ State.reset with schedule := [.issue (word 0x00 0 0), .reset] } : State).schedule =
      [.issue (word 0x00 0 0), .reset] ∧
    ({ State.reset with schedule := [.issue (word 0x00 0 0), .reset, .issue (word 0x00 0 0), .take] } : State).schedule =
      [.issue (word 0x00 0 0), .reset, .issue (word 0x00 0 0), .take] ∧
    (∀ t : State, t.maxBytes = State.reset.maxBytes → t.Holds (word 0x00 0 0) →
      coreTurn t = .next { t with phase := .done (.ok 0 .empty) }) :=
  ⟨rfl, rfl, rfl, rfl, fun t _ => signBit_answered t⟩

/-- A host that issues one command, which every core answers with the same response. -/
theorem witness_ResponsesAreTakenInIssueOrder :
    ({ State.reset with schedule := [.issue (word 0x00 0 0), .take] } : State).phase = .idle ∧
    ({ State.reset with schedule := [.issue (word 0x00 0 0), .take] } : State).Safe ∧
    ([(word 0x00 0 0, Response.ok 0 .empty)] = [] → State.reset.awaiting = false) ∧
    (∀ p ∈ [(word 0x00 0 0, Response.ok 0 .empty)], ∀ t : State,
      t.maxBytes = ({ State.reset with schedule := [.issue (word 0x00 0 0), .take] } : State).maxBytes →
      t.Holds p.1 → coreTurn t = .next { t with phase := .done p.2 }) ∧
    ({ State.reset with schedule := [.issue (word 0x00 0 0), .take] } : State).schedule =
      [(word 0x00 0 0, Response.ok 0 .empty)].flatMap (fun p => [.issue p.1, .take]) := by
  refine ⟨rfl, rfl, fun _ => rfl, ?_, rfl⟩
  rintro p hp t - ht
  rw [List.mem_singleton] at hp
  subst hp
  exact signBit_answered t ht

/-! ### Witnesses: encoding and several copies -/

theorem witness_DecodeOfEncode : (Instr.makeLongArray (2 ^ 32 - 1)).WellFormed ∧ Instr.makeFloatW32.WellFormed := by
  decide
theorem witness_EncodeOfDecode : decode 0xFFFFFFFF00000033#64 = .op (.makeLongArray (2 ^ 32 - 1)) := by decide
theorem witness_CodecFunctionFieldStructure :
    (decode 0x0000000500000023#64 = .op (.makeByteArrayA64 5) ∧ cmdUnit 0x0000000500000023#64 = 2#4) ∧
    (decode 0x0000000500000030#64 = .op (.makeIntBytes 5) ∧ cmdUnit 0x0000000500000030#64 = 3#4) := by decide
theorem witness_AssembledLineIsAdmitted :
    ([1, 2] : List Word32).length < 2 ^ 32 ∧ ([1, 2] : List Word64).length < 2 ^ 32 ∧ ([] : List Byte).length < 2 ^ 32 ∧
    ((assemble (.makeIntArray [1, 2, 3, 4])).input.length < 2 ^ 32 ∧
      decode (assemble (.makeIntArray [1, 2, 3, 4])).cmd = .op (.makeIntArray 4) ∧
      (busy (assemble (.makeIntArray [1, 2, 3, 4]))).Holds (assemble (.makeIntArray [1, 2, 3, 4])) ∧
      overMaxBytes (.makeIntArray 4) (busy (assemble (.makeIntArray [1, 2, 3, 4]))).maxBytes = false) := by decide
theorem witness_CopiesDoNotObserveEachOther :
    ∃ q q' r r' : Platform,
      (Platform.mk [busy (word 0x13 0 0), busy (word 0x10 0 0)] []).stepCore 0 = .next q ∧ 1 ≠ 0 ∧
      (Platform.mk [busy (word 0x13 0 0), busy (word 0x10 0 0)] []).cores[0]? = some (busy (word 0x13 0 0)) ∧
      (Platform.mk [busy (word 0x13 0 0), busy (word 0x10 0 0)] []).stepCore 1 = .next q' ∧
      q.stepCore 1 = .next r ∧ q'.stepCore 0 = .next r' :=
  ⟨_, _, _, _, rfl, by decide, rfl, rfl, rfl, rfl⟩

end Sys2Proof.Tests
end

section
/-! PROOFS. The numbers that the IEEE-754 patterns of the block stand for (00_scope.md R14 to R18). -/

namespace Sys2Proof.Machine

/-! ### The value of a pattern, from its number -/

/-- The value formula of R14 on a pattern with sign 0, exponent field `E` and fraction field `F`. -/
theorem f64Value_of_toNat {d : Word64} {E F : Nat} (hd : d.toNat = E * 2 ^ 52 + F) (hF : F < 2 ^ 52) (hE : E ≠ 0)
    (hE' : E < 2047) :
    f64Value d = some ((1 + (F : ℚ) / 2 ^ 52) * 2 ^ ((E : ℤ) - 1023)) ∧ d.getLsbD 63 = false := by
  have hsign : d.getLsbD 63 = false := Nat.testBit_lt_two_pow (by omega)
  have hexp : (d.extractLsb' 52 11).toNat = E := by
    rw [BitVec.extractLsb'_toNat, Nat.shiftRight_eq_div_pow]; omega
  have hfrac : (d.extractLsb' 0 52).toNat = F := by
    rw [BitVec.extractLsb'_toNat, Nat.shiftRight_zero]; omega
  exact ⟨by simp only [f64Value, hsign, hexp, hfrac, hE, hE'.ne]; simp, hsign⟩

/-- The same formula with the fields and the bias of R16. -/
theorem f32Value_of_toNat {d : Word32} {E F : Nat} (hd : d.toNat = E * 2 ^ 23 + F) (hF : F < 2 ^ 23) (hE : E ≠ 0)
    (hE' : E < 255) :
    f32Value d = some ((1 + (F : ℚ) / 2 ^ 23) * 2 ^ ((E : ℤ) - 127)) ∧ d.getLsbD 31 = false := by
  have hsign : d.getLsbD 31 = false := Nat.testBit_lt_two_pow (by omega)
  have hexp : (d.extractLsb' 23 8).toNat = E := by
    rw [BitVec.extractLsb'_toNat, Nat.shiftRight_eq_div_pow]; omega
  have hfrac : (d.extractLsb' 0 23).toNat = F := by
    rw [BitVec.extractLsb'_toNat, Nat.shiftRight_zero]; omega
  exact ⟨by simp only [f32Value, hsign, hexp, hfrac, hE, hE'.ne]; simp, hsign⟩

/-! ### The normalised fields of R15 and R16, for any fraction width and bias -/

/-- The fraction of a normalised m fits its field of `p` bits. -/
theorem normalisedFraction_lt {m p : Nat} (h0 : m ≠ 0) (hp : m.log2 ≤ p) :
    (m - 2 ^ m.log2) * 2 ^ (p - m.log2) < 2 ^ p := by
  calc (m - 2 ^ m.log2) * 2 ^ (p - m.log2)
      < 2 ^ m.log2 * 2 ^ (p - m.log2) :=
        Nat.mul_lt_mul_of_pos_right (by have := log2_bounds h0; omega) (Nat.two_pow_pos _)
    _ = 2 ^ p := pow_mul_pow_sub 2 hp

/-- Normalisation loses nothing: the significand is m × 2^−e for e = floor(log2(m)), and the exponent e − k takes the
2^−e back. -/
theorem normalisedValue_eq {m k p bias : Nat} (h0 : m ≠ 0) (hp : m.log2 ≤ p) (hk : k ≤ bias) :
    (1 + (((m - 2 ^ m.log2) * 2 ^ (p - m.log2) : Nat) : ℚ) / 2 ^ p) * 2 ^ (((bias + m.log2 - k : Nat) : ℤ) - bias) =
      (m : ℚ) / 2 ^ k := by
  have hexponent : ((bias + m.log2 - k : Nat) : ℤ) - bias = (m.log2 : ℤ) - k := by omega
  rw [hexponent, zpow_sub₀ two_ne_zero, zpow_natCast, zpow_natCast, ← pow_mul_pow_sub (2 : ℚ) hp]
  push_cast [Nat.cast_sub (log2_bounds h0).1]
  field_simp
  ring

/-! ### The obligations -/

/-- Settles O20: m = 0 is the zero pattern; a nonzero m has normal fields, whose value is m × 2^−k. -/
theorem bin64ExactHasExactValue : Obligations.Bin64ExactHasExactValue := by
  intro m k hm _ hk
  rcases eq_or_ne m 0 with rfl | h0
  · simp [f64Value]
  · have hlog : m.log2 < 53 := (Nat.log2_lt h0).2 hm
    obtain ⟨hvalue, hsign⟩ :=
      f64Value_of_toNat (bin64Exact_toNat h0 hm hk) (normalisedFraction_lt h0 (by omega)) (by omega) (by omega)
    exact ⟨hvalue.trans (congrArg some (normalisedValue_eq h0 (by omega) (by omega))), hsign⟩

/-- Settles O21, as O20 with the fields of R16. -/
theorem bin32ExactHasExactValue : Obligations.Bin32ExactHasExactValue := by
  intro m k hm _ hk
  rcases eq_or_ne m 0 with rfl | h0
  · simp [f32Value]
  · have hlog : m.log2 < 24 := (Nat.log2_lt h0).2 hm
    obtain ⟨hvalue, hsign⟩ :=
      f32Value_of_toNat (bin32Exact_toNat h0 hm hk) (normalisedFraction_lt h0 (by omega)) (by omega) (by omega)
    exact ⟨hvalue.trans (congrArg some (normalisedValue_eq h0 (by omega) (by omega))), hsign⟩

/-- A pattern with sign 0 and the exponent field of 1.0 stands for 1 + fraction × 2^−52 (R192). -/
theorem f64Value_of_exponent_one {x : Word64} (hx : x.extractLsb' 52 12 = 0x3FF#12) :
    f64Value x = some (1 + ((x.extractLsb' 0 52).toNat : ℚ) / 2 ^ 52) := by
  have htop : x.toNat / 2 ^ 52 % 2 ^ 12 = 1023 := by
    simpa [Nat.shiftRight_eq_div_pow] using congrArg BitVec.toNat hx
  have hlow : (x.extractLsb' 0 52).toNat = x.toNat % 2 ^ 52 := by simp
  have hd : x.toNat = 1023 * 2 ^ 52 + (x.extractLsb' 0 52).toNat := by omega
  simpa using (f64Value_of_toNat hd (BitVec.isLt _) (by omega) (by omega)).1

/-- The pattern of 1.0 stands for 1. -/
theorem f64Value_one : f64Value f64One = some 1 := by
  rw [f64Value_of_exponent_one (x := f64One) rfl, show (f64One.extractLsb' 0 52).toNat = 0 from rfl]
  simp

/-- Settles O22: x is 1 + fraction × 2^−52, 1.0 is 1, and Bin64Exact(fraction, 52) is their difference by O20. -/
theorem f64SubOneIsExactDifference : Obligations.F64SubOneIsExactDifference := by
  intro x hx
  have hfrac : (x.extractLsb' 0 52).toNat < 2 ^ 53 := by omega
  obtain ⟨hdiff, -⟩ := bin64ExactHasExactValue (x.extractLsb' 0 52).toNat 52 hfrac (by omega) (by omega)
  exact ⟨_, 1, f64Value_of_exponent_one hx, f64Value_one, by rw [f64SubOne, hdiff, add_sub_cancel_left]⟩

end Sys2Proof.Machine
end

section
/-! PROOFS. The handshake (10_state.md R20 to R36; 70_reset_and_hazards.md R234 to R236): what a step does in each case
of the schedule, what it keeps, and the obligations about the machine's state. -/

namespace Sys2Proof.Machine

section Rules
variable {s t : State} {c : Command} {i : Instr} {r : Response} {rest : List Move}

/-- An outcome answers at most one next state. -/
theorem next_unique {o : Result} (ht : o = .next t) (hs : o = .next s) : t = s :=
  Host.Outcome.next.inj (ht.symm.trans hs)

/-! ### The core's turn -/

/-- Outside Busy the core has no step (R28). -/
theorem coreTurn_of_not_busy (h : ∀ c, s.phase ≠ .busy c) : coreTurn s = .next s := by
  obtain ⟨hturn, -⟩ | ⟨c, hc, -⟩ := coreTurn_cases s
  · exact hturn
  · exact absurd hc (h c)

/-- In Busy the core's turn runs the instruction the held command decodes to (R28, R70). -/
theorem coreTurn_of_decode (h : s.phase = .busy c) (hd : decode c.cmd = .op i) : coreTurn s = exec i s := by
  simp only [coreTurn, h, execCommand, hd]

/-- The core's turn answers a next state, and touches neither the schedule nor what the host has taken. -/
theorem coreTurn_answers_next (s : State) :
    ∃ t, coreTurn s = .next t ∧ t.schedule = s.schedule ∧ t.taken = s.taken := by
  obtain ⟨h, -⟩ | ⟨c, -, h | ⟨r, h, -⟩⟩ := coreTurn_cases s <;> exact ⟨_, h, rfl, rfl⟩

/-- Under one MAX_BYTES a command has one answer: every core that holds it refuses it, or every core that holds it gives
the same response (R20). -/
theorem coreTurn_uniform (c : Command) (maxBytes : Nat) :
    (∀ s : State, s.phase = .busy c → s.maxBytes = maxBytes → coreTurn s = .next s.refuse) ∨
    ∃ r, ∀ s : State, s.phase = .busy c → s.maxBytes = maxBytes → coreTurn s = .next (s.respond r) := by
  cases hd : decode c.cmd with
  | reserved why =>
    refine .inl fun s hs _ => ?_
    simp only [coreTurn, hs, execCommand, hd, refuse_eq]
  | op i =>
    cases hm : payloadMatches i c.input with
    | false =>
      refine .inl fun s hs _ => ?_
      rw [coreTurn_of_decode hs hd, exec_eq_whenAdmitted, whenAdmitted_mismatch hs hm]
    | true =>
      cases ho : overMaxBytes i maxBytes with
      | true =>
        refine .inl fun s hs hmax => ?_
        rw [coreTurn_of_decode hs hd, exec_eq_whenAdmitted, whenAdmitted_over hs (hmax ▸ ho)]
      | false =>
        refine .inr ⟨ruleOf i c, fun s hs hmax => ?_⟩
        rw [coreTurn_of_decode hs hd, exec_eq_whenAdmitted, whenAdmitted_rule hs hm (hmax ▸ ho)]

/-! ### One step, by the next scheduled move (R27 to R30) -/

theorem step_of_nil (h : s.schedule = []) : step s = coreTurn s := by
  simp only [step, advance, h]

theorem step_execute (h : s.schedule = .execute :: rest) : step s = coreTurn { s with schedule := rest } := by
  simp only [step, advance, h]

theorem step_reset (h : s.schedule = .reset :: rest) : step s = .next { s.resetEvent with schedule := rest } := by
  simp only [step, advance, h]

theorem step_issue_idle (h : s.schedule = .issue c :: rest) (hp : s.phase = .idle) :
    step s = .next { s.capture c with schedule := rest } := by
  simp only [step, advance, h, issue_idle hp]

theorem step_issue_waits (h : s.schedule = .issue c :: rest) (hp : s.phase ≠ .idle) : step s = coreTurn s := by
  simp only [step, advance, h, issue_not_idle hp]

theorem step_take_done (h : s.schedule = .take :: rest) (hp : s.phase = .done r) :
    step s = .next { s.handOver r with schedule := rest } := by
  simp only [step, advance, h, take_done hp]

theorem step_take_waits (h : s.schedule = .take :: rest) (hp : ∀ r, s.phase ≠ .done r) : step s = coreTurn s := by
  simp only [step, advance, h, take_not_done hp]

/-- In Refused a step makes a Reset or leaves all but the schedule as it is (R26, R30). -/
theorem step_refused (hp : s.phase = .refused) :
    (∃ rest, s.schedule = .reset :: rest ∧ step s = .next { s.resetEvent with schedule := rest }) ∨
    ∃ rest, step s = .next { s with schedule := rest } := by
  have hturn : coreTurn s = .next s := coreTurn_of_not_busy (by simp [hp])
  match h : s.schedule with
  | [] => exact .inr ⟨s.schedule, (step_of_nil h).trans hturn⟩
  | .execute :: rest => exact .inr ⟨rest, (step_execute h).trans (coreTurn_of_not_busy (by simp [hp]))⟩
  | .reset :: rest => exact .inl ⟨rest, rfl, step_reset h⟩
  | .issue c :: rest => exact .inr ⟨s.schedule, (step_issue_waits h (by simp [hp])).trans hturn⟩
  | .take :: rest => exact .inr ⟨s.schedule, (step_take_waits h (by simp [hp])).trans hturn⟩

/-- Every next state of a step, the schedule aside: nothing done, a refusal, a sound response, a Reset, an Issue or a
Take. -/
theorem step_next_cases (h : step s = .next t) :
    ∃ rest, t = { s with schedule := rest } ∨ t = State.refuse { s with schedule := rest } ∨
      (∃ c r, s.phase = .busy c ∧ r.Sound s.maxBytes ∧ t = State.respond { s with schedule := rest } r) ∨
      t = State.resetEvent { s with schedule := rest } ∨ (∃ c, t = State.capture { s with schedule := rest } c) ∨
      ∃ r, s.phase = .done r ∧ t = State.handOver { s with schedule := rest } r := by
  obtain ⟨rest, hs⟩ | ⟨rest, hs⟩ | ⟨c, rest, -, hs⟩ | ⟨r, rest, hp, hs⟩ := step_cases s
  · obtain ⟨hturn, -⟩ | ⟨c, hp, hturn | ⟨r, hturn, hr⟩⟩ := coreTurn_cases { s with schedule := rest }
    · exact ⟨rest, .inl (next_unique h (hs.trans hturn))⟩
    · exact ⟨rest, .inr (.inl (next_unique h (hs.trans hturn)))⟩
    · exact ⟨rest, .inr (.inr (.inl ⟨c, r, hp, hr, next_unique h (hs.trans hturn)⟩))⟩
  · exact ⟨rest, .inr (.inr (.inr (.inl (next_unique h hs))))⟩
  · exact ⟨rest, .inr (.inr (.inr (.inr (.inl ⟨c, next_unique h hs⟩))))⟩
  · exact ⟨rest, .inr (.inr (.inr (.inr (.inr ⟨r, hp, next_unique h hs⟩))))⟩

/-! ### The invariant, operation by operation -/

/-- Idle holds nothing, so there the invariant asks only that the responses taken are sound. -/
theorem State.Inv.of_idle (hp : s.phase = .idle) (ht : ∀ r ∈ s.taken, r.Sound s.maxBytes) : s.Inv where
  refused_marked h := by simp [hp] at h
  busy_awaited _ h := by simp [hp] at h
  done_awaited _ h := by simp [hp] at h
  held_sound _ h := by simp [hp] at h
  taken_sound := ht

theorem State.Inv.withSchedule (hi : s.Inv) (rest : List Move) : State.Inv { s with schedule := rest } :=
  ⟨hi.refused_marked, hi.busy_awaited, hi.done_awaited, hi.held_sound, hi.taken_sound⟩

theorem State.Inv.refuse (hi : s.Inv) : s.refuse.Inv where
  refused_marked _ := rfl
  busy_awaited _ h := nomatch h
  done_awaited _ h := nomatch h
  held_sound _ h := nomatch h
  taken_sound := hi.taken_sound

theorem State.Inv.respond (hi : s.Inv) (hp : s.phase = .busy c) (hr : r.Sound s.maxBytes) : (s.respond r).Inv where
  refused_marked h := nomatch h
  busy_awaited _ h := nomatch h
  done_awaited _ _ := hi.busy_awaited c hp
  held_sound _ h := by cases h; exact hr
  taken_sound := hi.taken_sound

theorem State.Inv.resetEvent (hi : s.Inv) : s.resetEvent.Inv := .of_idle rfl hi.taken_sound

theorem State.Inv.capture (hi : s.Inv) (c : Command) : (s.capture c).Inv where
  refused_marked h := nomatch h
  busy_awaited _ _ := rfl
  done_awaited _ h := nomatch h
  held_sound _ h := nomatch h
  taken_sound := hi.taken_sound

theorem State.Inv.handOver (hi : s.Inv) (hp : s.phase = .done r) : (s.handOver r).Inv := by
  refine .of_idle rfl fun q hq => ?_
  obtain hq | rfl : q ∈ s.taken ∨ q = r := by simpa using hq
  · exact hi.taken_sound q hq
  · exact hi.held_sound q hp

/-! ### Runs of several steps -/

/-- A step that changes nothing can be made any number of times. -/
theorem run_of_step_self (h : step s = .next s) (k : Nat) : Sys2Proof.core.run k s = .next s := by
  induction k with
  | zero => exact run_zero s
  | succ k ih => rw [run_next k h, ih]

/-- An Issue, the core's turn and the Take hand the host one response (R31). -/
theorem run_issue_take {k : Nat} (hp : s.phase = .idle) (hs : s.schedule = .issue c :: .take :: rest)
    (hr : coreTurn { s.capture c with schedule := .take :: rest } =
      .next { s.capture c with schedule := .take :: rest, phase := .done r }) :
    Sys2Proof.core.run (k + 3) s =
      Sys2Proof.core.run k { s with schedule := rest, taken := s.taken ++ [r], awaiting := false } := by
  rw [run_next (k + 2) (step_issue_idle hs hp),
    run_next (k + 1) ((step_take_waits rfl (by simp)).trans hr), run_next k (step_take_done rfl rfl)]
  cases s
  cases hp
  rfl

end Rules

/-- The schedule of a host that issues one by one and takes each response (R234). -/
def issueTakeEach (cs : List (Command × Response)) : List Move := cs.flatMap fun p => [.issue p.1, .take]

theorem issueTakeEach_cons (p : Command × Response) (cs : List (Command × Response)) :
    issueTakeEach (p :: cs) = .issue p.1 :: .take :: issueTakeEach cs := rfl

/-- After three steps per command the host has one response per command, in issue order (R31). -/
theorem run_issueTakeEach (cs : List (Command × Response)) (s : State) (hp : s.phase = .idle) (hsafe : s.Safe)
    (haw : cs = [] → s.awaiting = false)
    (hans : ∀ p ∈ cs, ∀ t : State, t.maxBytes = s.maxBytes → t.Holds p.1 →
      coreTurn t = .next { t with phase := .done p.2 })
    (hs : s.schedule = issueTakeEach cs) :
    Sys2Proof.core.run (3 * cs.length) s =
      .next { s with schedule := [], taken := s.taken ++ cs.map Prod.snd, awaiting := false } := by
  induction cs generalizing s with
  | nil =>
    have hnil : s.schedule = [] := hs
    simp [run_zero, ← haw rfl, ← hnil]
  | cons p cs ih =>
    rw [issueTakeEach_cons] at hs
    have hfirst := hans p List.mem_cons_self
      { s.capture p.1 with schedule := .take :: issueTakeEach cs } rfl ⟨rfl, hsafe⟩
    have hrest := ih { s with schedule := issueTakeEach cs, taken := s.taken ++ [p.2], awaiting := false } hp hsafe
      (fun _ => rfl) (fun q hq => hans q (List.mem_cons_of_mem p hq)) rfl
    rw [List.length_cons, Nat.mul_succ, run_issue_take hp hs hfirst, hrest]
    simp

/-! ### How a command word is placed (log 12) -/

theorem decode_of_decodeTableWord {nbits w : Nat} {i : Instr} (h : decodeTableWord nbits w = some i) :
    decode (tableCommand nbits w) = .op i := by
  unfold decodeTableWord at h
  split at h
  · split at h
    · cases h; assumption
    · cases h
  · cases h

/-- The payload a placed command carries agrees with it, where MAX_BYTES admits it (R46, R47). -/
theorem payloadMatches_zeroPayload {i : Instr} {maxBytes : Nat} (h : overMaxBytes i maxBytes = false) :
    payloadMatches i (zeroPayload maxBytes i) = true := by
  simp only [zeroPayload, h, Bool.false_eq_true, if_false]
  cases i
  case makeByteArrayA32 len => simp [payloadMatches, Payload.isWords32]
  case makeByteArrayA64 len => simp [payloadMatches, Payload.isWords64]
  case makeIntBytes len => simp [payloadMatches, Payload.isBytes]
  case makeLongBytes len => simp [payloadMatches, Payload.isBytes]
  case makeIntArray len => simp [payloadMatches, Payload.isBytes]
  case makeLongArray len => simp [payloadMatches, Payload.isBytes]
  all_goals rfl

/-! ### The obligations -/

/-- Settles O47: each case of a step keeps the invariant by its own rule. -/
theorem stepKeepsInv : Obligations.StepKeepsInv := by
  intro s t hi h
  obtain ⟨rest, rfl | rfl | ⟨c, r, hp, hr, rfl⟩ | rfl | ⟨c, rfl⟩ | ⟨r, hp, rfl⟩⟩ := step_next_cases h
  · exact ⟨hi.withSchedule rest, rfl, List.prefix_rfl⟩
  · exact ⟨(hi.withSchedule rest).refuse, rfl, List.prefix_rfl⟩
  · exact ⟨(hi.withSchedule rest).respond hp hr, rfl, List.prefix_rfl⟩
  · exact ⟨(hi.withSchedule rest).resetEvent, rfl, List.prefix_rfl⟩
  · exact ⟨(hi.withSchedule rest).capture c, rfl, List.prefix_rfl⟩
  · exact ⟨(hi.withSchedule rest).handOver hp, rfl, List.prefix_append _ _⟩

/-- Settles O41: the placed Execute is the next move, and the command placed decodes to the word's instruction. -/
theorem placedWordIsRunNext : Obligations.PlacedWordIsRunNext := by
  intro s nbits w i h
  have hd := decode_of_decodeTableWord h
  refine ⟨commandOf s.maxBytes (tableCommand nbits w), (step_execute rfl).trans (coreTurn_of_decode rfl hd), hd,
    fun ho => ?_⟩
  simpa only [commandOf, hd] using payloadMatches_zeroPayload ho

/-- Settles O42: the core's turn refuses or responds once a command is held. -/
theorem executeEndsInDoneOrRefused : Obligations.ExecuteEndsInDoneOrRefused := by
  intro s c hc
  obtain ⟨-, hnot⟩ | ⟨-, -, hrefuse | ⟨r, hr, -⟩⟩ := coreTurn_cases s
  · exact absurd hc (hnot c)
  · exact .inr hrefuse
  · exact .inl ⟨r, hr⟩

/-- Settles O44: the command's one answer is given by both cores. -/
theorem answerDependsOnCommandAlone : Obligations.AnswerDependsOnCommandAlone := by
  intro s t u v c hs ht hmax hu hv
  obtain hrefuse | ⟨r, hr⟩ := coreTurn_uniform c t.maxBytes
  · obtain rfl := next_unique hu (hrefuse s hs hmax)
    obtain rfl := next_unique hv (hrefuse t ht rfl)
    exact ⟨rfl, rfl⟩
  · obtain rfl := next_unique hu (hr s hs hmax)
    obtain rfl := next_unique hv (hr t ht rfl)
    exact ⟨rfl, rfl⟩

/-- Settles O45: the core's turn answers a next state, and every other move is made whole. -/
theorem stepAnswersNextEverywhere : Obligations.StepAnswersNextEverywhere := by
  intro s
  obtain ⟨rest, h⟩ | ⟨rest, h⟩ | ⟨c, rest, -, h⟩ | ⟨r, rest, -, h⟩ := step_cases s
  · obtain ⟨t, ht, -⟩ := coreTurn_answers_next { s with schedule := rest }
    exact ⟨t, h.trans ht⟩
  all_goals exact ⟨_, h⟩

/-- Settles O46: only a refusal writes the mark; the invariant covers a step that stays in Refused. -/
theorem refusedMarkIsPermanent : Obligations.RefusedMarkIsPermanent := by
  intro s t hi h
  obtain ⟨rest, rfl | rfl | ⟨c, r, -, -, rfl⟩ | rfl | ⟨c, rfl⟩ | ⟨r, -, rfl⟩⟩ := step_next_cases h
  · exact ⟨.inl, fun ht => ht.elim id hi.refused_marked⟩
  all_goals simp

/-- Settles O49, by induction on the commands, three steps for each. -/
theorem responsesAreTakenInIssueOrder : Obligations.ResponsesAreTakenInIssueOrder := by
  intro s cs hp hsafe haw hans hs
  exact ⟨_, run_issueTakeEach cs s hp hsafe haw hans hs, rfl, rfl, rfl, hp, hsafe⟩

/-- Settles O57: outside Busy the core's turn is idle, and in Refused the only enabled move is a Reset. -/
theorem coreTurnOutsideBusyChangesNothing : Obligations.CoreTurnOutsideBusyChangesNothing := by
  intro s hs
  have hturn := coreTurn_of_not_busy hs
  refine ⟨hturn, fun rest h => (step_execute h).trans (coreTurn_of_not_busy hs),
    fun h => run_of_step_self ((step_of_nil h).trans hturn), fun hp t ht => ?_⟩
  obtain ⟨rest, hreset, h⟩ | ⟨rest, h⟩ := step_refused hp
  · obtain rfl := next_unique ht h
    exact ⟨rfl, rfl, .inr ⟨rfl, rest, hreset⟩⟩
  · obtain rfl := next_unique ht h
    exact ⟨rfl, rfl, .inl hp⟩

/-- Settles O36: Idle with no response taken meets the invariant. -/
theorem resetStateIsIdleAndMeetsInv : Obligations.ResetStateIsIdleAndMeetsInv :=
  ⟨.of_idle rfl (List.forall_mem_nil _), rfl, rfl, rfl, rfl⟩

/-- Settles O37: out of Idle the Issue waits while the core has its turn. -/
theorem issueCapturesCommandInIdleOnly : Obligations.IssueCapturesCommandInIdleOnly := by
  intro s c rest h
  refine ⟨step_issue_idle h, fun hp => ?_⟩
  obtain ⟨t, ht, hschedule, -⟩ := coreTurn_answers_next s
  exact ⟨t, (step_issue_waits h hp).trans ht, hschedule⟩

/-- Settles O38: out of Done the Take waits while the core has its turn. -/
theorem takeHandsOverResponseInDoneOnly : Obligations.TakeHandsOverResponseInDoneOnly := by
  intro s rest h
  refine ⟨fun r => step_take_done h, fun hp => ?_⟩
  obtain ⟨t, ht, -, htaken⟩ := coreTurn_answers_next s
  exact ⟨t, (step_take_waits h hp).trans ht, htaken⟩

/-- Settles O39: no phase disables a Reset. -/
theorem resetEmptiesHandshakeInAnyPhase : Obligations.ResetEmptiesHandshakeInAnyPhase :=
  fun _ _ h => step_reset h

/-- Settles O40: in Busy neither an Issue nor a Take is enabled, so each waits. -/
theorem stepRunsDecodedInstruction : Obligations.StepRunsDecodedInstruction := by
  intro s c i hc hd
  have hturn := coreTurn_of_decode hc hd
  exact ⟨fun h => (step_of_nil h).trans hturn,
    fun rest h => (step_execute h).trans (coreTurn_of_decode hc hd),
    fun d rest h => (step_issue_waits h (by simp [hc])).trans hturn,
    fun rest h => (step_take_waits h (by simp [hc])).trans hturn⟩

/-- Settles O48: the Issue waits, and the core's turn is idle in Done. -/
theorem untakenResponseBlocksIssue : Obligations.UntakenResponseBlocksIssue := by
  intro s r c rest hp h
  exact (step_issue_waits h (by simp [hp])).trans (coreTurn_of_not_busy (by simp [hp]))

end Sys2Proof.Machine
end

section
/-! PROOFS. Payloads (20_memory.md R40 to R51): admission by kind, length and size, the byte order of a Word64 array and
of its halves, and what a meaning leaves unchanged. -/

namespace Sys2Proof

/-! ### The encoded word, field by field (30_encoding.md R60, R73) -/

section Encode
variable {i : Instr}

theorem cmdOpc_encode (h : i.WellFormed) : cmdOpc (encode i) = i.opc := by
  apply BitVec.eq_of_toNat_eq
  rw [cmdOpc_toNat, Laws.EncodedWord.of_len i h]
  omega

theorem cmdRsvd_encode (h : i.WellFormed) : cmdRsvd (encode i) = 0#24 := by
  apply BitVec.eq_of_toNat_eq
  rw [cmdRsvd_toNat, Laws.EncodedWord.of_len i h, BitVec.toNat_ofNat]
  omega

theorem cmdLen_encode (h : i.WellFormed) : cmdLen (encode i) = i.len := by
  rw [cmdLen_eq, Laws.EncodedWord.of_len i h]
  omega

theorem len_of_scalar (h : i.format = .S) : i.len = 0 := by
  cases i <;> cases h <;> rfl

/-- The decoder finds the row that the encoder wrote. -/
theorem decode_encode (h : i.WellFormed) : decode (encode i) = .op i := by
  cases hf : i.format with
  | S =>
    obtain ⟨hrow, hnone⟩ := (rows_of_format i).1 hf
    refine decode_scalar (cmdRsvd_encode h) ?_ ?_ ((cmdLen_encode h).trans (len_of_scalar hf))
    · rw [cmdOpc_encode h, hnone]
    · rw [cmdOpc_encode h, hrow]
  | Q =>
    refine decode_sequence (cmdRsvd_encode h) ?_
    rw [cmdOpc_encode h, cmdLen_encode h, (rows_of_format i).2 hf]

end Encode

namespace Machine

/-! ### A meaning refuses or responds (20_memory.md R46, R47; 30_encoding.md R70) -/

section Meaning
variable {s t : State} {c : Command} {i : Instr} {p : Payload} {n : Nat}

theorem exec_mismatch (hc : s.phase = .busy c) (hm : payloadMatches i c.input = false) :
    exec i s = .next s.refuse := by
  rw [exec_eq_whenAdmitted, whenAdmitted_mismatch hc hm]

theorem exec_over (hc : s.phase = .busy c) (ho : s.maxBytes < boundedBytes i) : exec i s = .next s.refuse := by
  rw [exec_eq_whenAdmitted, whenAdmitted_over hc ((overMaxBytes_eq_true i s.maxBytes).2 ho)]

/-- The next state of a meaning is a refusal or a response. -/
theorem exec_next_cases (h : exec i s = .next t) : t = s.refuse ∨ ∃ r, t = s.respond r := by
  rw [exec_eq_whenAdmitted] at h
  obtain ⟨hfault, -⟩ | ⟨c, -, hrefuse | ⟨hrule, -⟩⟩ :=
    whenAdmitted_cases i s fun c => .next (s.respond (ruleOf i c))
  · cases hfault.symm.trans h
  · exact .inl (next_unique h hrefuse)
  · exact .inr ⟨ruleOf i c, next_unique h hrule⟩

/-- The core's turn on an encoded, admitted command gives the response of its rule. -/
theorem responseOf_coreTurn_encode (hw : i.WellFormed) (a b : Word64) (hm : payloadMatches i p = true)
    (hb : boundedBytes i ≤ s.maxBytes) :
    responseOf (coreTurn (s.hold ⟨encode i, a, b, p⟩)) = some (ruleOf i ⟨encode i, a, b, p⟩) := by
  have hc : (s.hold ⟨encode i, a, b, p⟩).phase = .busy ⟨encode i, a, b, p⟩ := State.hold_phase s _
  rw [coreTurn_of_decode hc (decode_encode hw), exec_admitted hc hm hb, responseOf_respond]

/-! ### The kind and the length of IN (20_memory.md R40, R46) -/

/-- A format-S command asks for the empty sequence. -/
theorem payloadMatches_scalar (h : i.format = .S) (p : Payload) : payloadMatches i p = (p.length == 0) := by
  cases i <;> cases h <;> rfl

theorem isBytes_eq_false (h : ∀ bs, p.AreBytes bs → bs.length ≠ n) : p.isBytes n = false :=
  Bool.eq_false_iff.2 fun hp => ((p.isBytes_iff n).1 hp).elim (h _)

theorem isWords32_eq_false (h : ∀ ws, p.AreWords32 ws → ws.length ≠ n) : p.isWords32 n = false :=
  Bool.eq_false_iff.2 fun hp => ((p.isWords32_iff n).1 hp).elim (h _)

theorem isWords64_eq_false (h : ∀ ws, p.AreWords64 ws → ws.length ≠ n) : p.isWords64 n = false :=
  Bool.eq_false_iff.2 fun hp => ((p.isWords64_iff n).1 hp).elim (h _)

end Meaning

/-! ### The halves of a Word64 array (R44) -/

/-- The Word32 array of R44: the two halves of each word, low half first. -/
def halves (ws : List Word64) : List Word32 := ws.flatMap fun w => [loHalf w, hiHalf w]

theorem halves_cons (w : Word64) (ws : List Word64) : halves (w :: ws) = loHalf w :: hiHalf w :: halves ws := rfl

theorem length_halves (ws : List Word64) : (halves ws).length = 2 * ws.length := by
  induction ws with
  | nil => rfl
  | cons w ws ih => simp only [halves_cons, List.length_cons, ih]; omega

theorem extractLsb'_loHalf (w : Word64) {k : Nat} (hk : k + 8 ≤ 32) :
    (loHalf w).extractLsb' k 8 = w.extractLsb' k 8 :=
  BitVec.extractLsb'_extractLsb'_of_le hk

theorem extractLsb'_hiHalf (w : Word64) {k : Nat} (hk : k + 8 ≤ 32) :
    (hiHalf w).extractLsb' k 8 = w.extractLsb' (32 + k) 8 := by
  ext j hj
  have hlt : k + j < 32 := by omega
  simp [hiHalf, hlt, Nat.add_assoc]

/-- The eight bytes of a word are the four of its low half and then the four of its high half. -/
theorem le8_eq_le4_halves (w : Word64) : le8 w = le4 (loHalf w) ++ le4 (hiHalf w) := by
  simp [le8, le4, extractLsb'_loHalf, extractLsb'_hiHalf]

theorem leSeq8_eq_leSeq4_halves (ws : List Word64) : leSeq8 ws = leSeq4 (halves ws) := by
  induction ws with
  | nil => rfl
  | cons w ws ih =>
    rw [halves_cons, leSeq4_cons, leSeq4_cons, leSeq8_cons, ih, le8_eq_le4_halves, List.append_assoc]

/-! ### The obligations -/

/-- Settles O13: both commands are admitted, and both rules write the same bytes. -/
theorem word64ArraySerialisesAsItsHalves : Obligations.Word64ArraySerialisesAsItsHalves := by
  intro s a b ws _ hlen hmax
  refine ⟨.ok 0#64 (.ofBytes (leSeq8 ws)), rfl, ?_, ?_⟩
  · have hw : (Instr.makeByteArrayA64 ws.length).WellFormed := show ws.length < 2 ^ 32 by omega
    have hm : payloadMatches (.makeByteArrayA64 ws.length) (.ofWords64 ws) = true := by
      simp [payloadMatches, Payload.isWords64]
    rw [responseOf_coreTurn_encode hw a b hm hmax]
    simp [ruleOf]
  · have hw : (Instr.makeByteArrayA32 (2 * ws.length)).WellFormed := hlen
    have hb : boundedBytes (.makeByteArrayA32 (2 * ws.length)) ≤ s.maxBytes :=
      show 4 * (2 * ws.length) ≤ s.maxBytes by omega
    have hm : payloadMatches (.makeByteArrayA32 (2 * ws.length)) (.ofWords32 (halves ws)) = true := by
      simp [payloadMatches, Payload.isWords32, length_halves]
    refine (responseOf_coreTurn_encode hw a b hm hb).trans ?_
    simp [ruleOf, leSeq8_eq_leSeq4_halves]

/-- Settles O34: admission compares kind and length first. -/
theorem payloadMismatchIsRefused : Obligations.PayloadMismatchIsRefused := by
  intro s c hc
  refine ⟨fun i hi hlen => exec_mismatch hc ?_, fun n h => exec_mismatch hc (isWords32_eq_false h),
    fun n h => exec_mismatch hc (isWords64_eq_false h), fun n h => ?_⟩
  · rw [payloadMatches_scalar hi, beq_eq_false_iff_ne]
    exact hlen
  · have hm : c.input.isBytes n = false := isBytes_eq_false h
    exact ⟨exec_mismatch hc hm, exec_mismatch hc hm, exec_mismatch hc hm, exec_mismatch hc hm⟩

/-- Settles O43: a refusal and a response write the phase, and only a refusal writes the mark. -/
theorem execChangesOnlyPhaseAndMark : Obligations.ExecChangesOnlyPhaseAndMark := by
  intro i s t h
  obtain rfl | ⟨r, rfl⟩ := exec_next_cases h
  · exact ⟨rfl, rfl, rfl, rfl, .inr ⟨rfl, rfl⟩⟩
  · exact ⟨rfl, rfl, rfl, rfl, .inl ⟨⟨r, rfl⟩, rfl⟩⟩

/-- Settles O35: the size R47 names for the opcode is over the bound, whatever IN is. -/
theorem payloadOverMaxBytesIsRefused : Obligations.PayloadOverMaxBytesIsRefused :=
  fun _ _ _ hc => ⟨fun h => exec_over hc h, fun h => exec_over hc h,
    fun h => ⟨exec_over hc h, exec_over hc h, exec_over hc h, exec_over hc h⟩⟩

end Machine

end Sys2Proof
end

section
/-! PROOFS. The encoding (30_encoding.md R60 to R73): the decoder by the fields of the word, its inverse, the opcode map
against R72's lists, where an assembler line puts its operands, and the operand bits a command ignores. -/

namespace Sys2Proof

/-! ### Rows and formats of the opcode map (R63, R64) -/

section Rows
variable {i : Instr}

theorem wellFormed_of_scalar (h : i.format = .S) : i.WellFormed := by
  rw [Instr.WellFormed, len_of_scalar h]
  exact Nat.two_pow_pos _

/-- A format-Q opcode has its row whatever LEN the word carries. -/
theorem sequenceRow_of_format (h : i.format = .Q) (n : Nat) : ∃ j, sequenceRow i.opc n = some j := by
  cases i <;> cases h <;> exact ⟨_, rfl⟩

end Rows

/-! ### What a word's fields make of it (R69) -/

section Fields
variable {w : Word64} {i : Instr}

theorem decode_of_rsvd (h : cmdRsvd w ≠ 0#24) : decode w = .reserved .rsvdNonzero := by
  rw [decode, if_pos h]

theorem decode_of_unassigned (hr : cmdRsvd w = 0#24) (h : ∀ i : Instr, i.opc ≠ cmdOpc w) :
    decode w = .reserved .unassignedOpcode := by
  have hq : sequenceRow (cmdOpc w) (cmdLen w) = none :=
    Option.eq_none_iff_forall_ne_some.2 fun i hi => h i (sequenceRow_eq_some hi).1
  have hs : scalarRow (cmdOpc w) = none :=
    Option.eq_none_iff_forall_ne_some.2 fun i hi => h i (scalarRow_eq_some hi).1
  simp [decode, hr, hq, hs]

theorem decode_of_scalar_len (hr : cmdRsvd w = 0#24) (ho : i.opc = cmdOpc w) (hf : i.format = .S)
    (hl : cmdLen w ≠ 0) : decode w = .reserved .scalarLenNonzero := by
  obtain ⟨hs, hq⟩ := (rows_of_format i).1 hf
  rw [ho] at hs hq
  simp [decode, hr, hq, hs, hl]

theorem decode_of_row (hr : cmdRsvd w = 0#24) (ho : i.opc = cmdOpc w) (hl : i.format = .S → cmdLen w = 0) :
    ∃ j, decode w = .op j := by
  cases hf : i.format with
  | S =>
    obtain ⟨hs, hq⟩ := (rows_of_format i).1 hf
    exact ⟨i, decode_scalar hr (ho ▸ hq _) (ho ▸ hs) (hl hf)⟩
  | Q =>
    obtain ⟨j, hj⟩ := sequenceRow_of_format hf (cmdLen w)
    exact ⟨j, decode_sequence hr (ho ▸ hj)⟩

/-- The four cases of R69, in its order, each with what the decoder answers. -/
theorem decode_cases (w : Word64) :
    (cmdRsvd w ≠ 0#24 ∧ decode w = .reserved .rsvdNonzero) ∨
    ((cmdRsvd w = 0#24 ∧ ∀ i : Instr, i.opc ≠ cmdOpc w) ∧ decode w = .reserved .unassignedOpcode) ∨
    ((cmdRsvd w = 0#24 ∧ (∃ i : Instr, i.opc = cmdOpc w ∧ i.format = .S) ∧ cmdLen w ≠ 0) ∧
      decode w = .reserved .scalarLenNonzero) ∨
    ((cmdRsvd w = 0#24 ∧ ∃ i : Instr, i.opc = cmdOpc w ∧ (i.format = .S → cmdLen w = 0)) ∧
      ∃ i, decode w = .op i) := by
  by_cases hr : cmdRsvd w = 0#24
  · by_cases ho : ∃ i : Instr, i.opc = cmdOpc w
    · obtain ⟨i, ho⟩ := ho
      by_cases hl : i.format = .S → cmdLen w = 0
      · exact .inr (.inr (.inr ⟨⟨hr, i, ho, hl⟩, decode_of_row hr ho hl⟩))
      · obtain ⟨hf, hl⟩ := Classical.not_imp.1 hl
        exact .inr (.inr (.inl ⟨⟨hr, ⟨i, ho, hf⟩, hl⟩, decode_of_scalar_len hr ho hf hl⟩))
    · have ho := not_exists.1 ho
      exact .inr (.inl ⟨⟨hr, ho⟩, decode_of_unassigned hr ho⟩)
  · exact .inl ⟨hr, decode_of_rsvd hr⟩

theorem decode_eq_rsvdNonzero_iff : decode w = .reserved .rsvdNonzero ↔ cmdRsvd w ≠ 0#24 := by
  refine ⟨fun h => ?_, decode_of_rsvd⟩
  obtain ⟨hc, -⟩ | ⟨-, hd⟩ | ⟨-, hd⟩ | ⟨-, i, hd⟩ := decode_cases w
  · exact hc
  all_goals cases h.symm.trans hd

theorem decode_eq_unassignedOpcode_iff :
    decode w = .reserved .unassignedOpcode ↔ cmdRsvd w = 0#24 ∧ ∀ i : Instr, i.opc ≠ cmdOpc w := by
  refine ⟨fun h => ?_, fun ⟨hr, ho⟩ => decode_of_unassigned hr ho⟩
  obtain ⟨-, hd⟩ | ⟨hc, -⟩ | ⟨-, hd⟩ | ⟨-, i, hd⟩ := decode_cases w
  case inr.inl => exact hc
  all_goals cases h.symm.trans hd

theorem decode_eq_scalarLenNonzero_iff :
    decode w = .reserved .scalarLenNonzero ↔
      cmdRsvd w = 0#24 ∧ (∃ i : Instr, i.opc = cmdOpc w ∧ i.format = .S) ∧ cmdLen w ≠ 0 := by
  refine ⟨fun h => ?_, fun ⟨hr, ⟨_, ho, hf⟩, hl⟩ => decode_of_scalar_len hr ho hf hl⟩
  obtain ⟨-, hd⟩ | ⟨-, hd⟩ | ⟨hc, -⟩ | ⟨-, i, hd⟩ := decode_cases w
  case inr.inr.inl => exact hc
  all_goals cases h.symm.trans hd

theorem exists_decode_eq_op_iff :
    (∃ i, decode w = .op i) ↔
      cmdRsvd w = 0#24 ∧ ∃ i : Instr, i.opc = cmdOpc w ∧ (i.format = .S → cmdLen w = 0) := by
  refine ⟨fun ⟨j, h⟩ => ?_, fun ⟨hr, _, ho, hl⟩ => decode_of_row hr ho hl⟩
  obtain ⟨-, hd⟩ | ⟨-, hd⟩ | ⟨-, hd⟩ | ⟨hc, -⟩ := decode_cases w
  case inr.inr.inr => exact hc
  all_goals cases h.symm.trans hd

/-! ### The fields as parts of the word's number -/

/-- LEN, RSVD and OPC make up the whole word (R60). -/
theorem toNat_eq_fields (w : Word64) :
    w.toNat = cmdLen w * 2 ^ 32 + (cmdRsvd w).toNat * 2 ^ 8 + (cmdOpc w).toNat := by
  rw [cmdLen_eq, cmdRsvd_toNat, cmdOpc_toNat]
  omega

theorem cmdLen_lt (w : Word64) : cmdLen w < 2 ^ 32 := (w.extractLsb' 32 32).isLt

theorem cmdRsvd_eq_zero_iff : cmdRsvd w = 0#24 ↔ w.toNat / 2 ^ 8 % 2 ^ 24 = 0 := by
  rw [BitVec.toNat_eq, cmdRsvd_toNat, BitVec.toNat_ofNat, Nat.zero_mod]

theorem opc_eq_cmdOpc_iff : i.opc = cmdOpc w ↔ i.opc.toNat = w.toNat % 2 ^ 8 := by
  rw [BitVec.toNat_eq, cmdOpc_toNat]

theorem cmdLen_eq_zero_iff : cmdLen w = 0 ↔ w.toNat < 2 ^ 32 := by
  rw [cmdLen_eq]
  omega

/-- The 32-bit field and its number are 0 together. -/
theorem cmdLen_ne_zero_iff : cmdLen w ≠ 0 ↔ w.extractLsb' 32 32 ≠ 0#32 :=
  (BitVec.toNat_eq (x := w.extractLsb' 32 32) (y := 0#32)).not.symm

/-! ### A decoded word (R66, R71) -/

theorem wellFormed_of_decode (h : decode w = .op i) : i.WellFormed := by
  obtain ⟨-, -, hl⟩ := decode_op_cases h
  rw [Instr.WellFormed, hl]
  exact cmdLen_lt w

/-- An operation's fields leave no choice of word. -/
theorem encode_of_decode (h : decode w = .op i) : encode i = w := by
  obtain ⟨hr, ho, hl⟩ := decode_op_cases h
  apply BitVec.eq_of_toNat_eq
  rw [Laws.EncodedWord.of_len i (wellFormed_of_decode h), toNat_eq_fields w, hr, ho, hl]
  simp

/-- FN and UNIT are the two halves of OPC (R60). -/
theorem cmdFn_eq_cmdOpc (w : Word64) : cmdFn w = (cmdOpc w).extractLsb' 0 4 :=
  (BitVec.extractLsb'_extractLsb'_of_le (by omega)).symm

theorem cmdUnit_eq_cmdOpc (w : Word64) : cmdUnit w = (cmdOpc w).extractLsb' 4 4 :=
  (BitVec.extractLsb'_extractLsb'_of_le (by omega)).symm

end Fields

/-! ### The opcode map as a list (R64, R72) -/

/-- One command of each row of R64, in the order of the opcodes. -/
def opcodeMap : List Instr :=
  [.makeBooleanW32, .makeBooleanW64, .extractLo, .extractHi, .makeLongHl, .makeIntFold, .makeByteArrayW32,
    .makeByteArrayW64, .makeByteArrayA32 0, .makeByteArrayA64 0, .makeIntBytes 0, .makeLongBytes 0, .makeIntArray 0,
    .makeLongArray 0, .makeDoubleW64, .makeDoubleW32x2, .makeFloatW32, .makeDoubleOpenW64, .makeDoubleOpenW32x2]

/-- The opcode of every command, with any LEN, stands in the map. -/
theorem exists_mem_opcodeMap (i : Instr) : ∃ j ∈ opcodeMap, j.opc = i.opc := by
  cases i <;> simp [opcodeMap, Instr.opc]

/-- A format-S command has no LEN, so it stands in the map itself. -/
theorem mem_opcodeMap_of_scalar {i : Instr} (h : i.format = .S) : i ∈ opcodeMap := by
  cases i <;> cases h <;> decide

/-- The nineteen opcodes of R72. -/
def opcodes : List (BitVec 8) := opcodeMap.map Instr.opc

/-- The thirteen of format S. -/
def scalarOpcodes : List (BitVec 8) := (opcodeMap.filter fun i => i.format = .S).map Instr.opc

theorem mem_opcodes_iff {opc : BitVec 8} : opc ∈ opcodes ↔ ∃ i : Instr, i.opc = opc := by
  refine List.mem_map.trans ⟨fun ⟨i, _, hi⟩ => ⟨i, hi⟩, ?_⟩
  rintro ⟨i, rfl⟩
  exact exists_mem_opcodeMap i

theorem mem_scalarOpcodes_iff {opc : BitVec 8} : opc ∈ scalarOpcodes ↔ ∃ i : Instr, i.opc = opc ∧ i.format = .S := by
  simp only [scalarOpcodes, List.mem_map, List.mem_filter, decide_eq_true_eq]
  exact ⟨fun ⟨i, ⟨_, hf⟩, ho⟩ => ⟨i, ho, hf⟩, fun ⟨i, ho, hf⟩ => ⟨i, ⟨mem_opcodeMap_of_scalar hf, hf⟩, ho⟩⟩

/-- The three classes of R72, by the lists of their opcodes. -/
def InReservedClass (w : Word64) : Prop :=
  cmdRsvd w ≠ 0#24 ∨ cmdOpc w ∉ opcodes ∨ cmdOpc w ∈ scalarOpcodes ∧ cmdLen w ≠ 0

theorem exists_decode_eq_reserved {w : Word64} (h : InReservedClass w) : ∃ why, decode w = .reserved why := by
  by_cases hr : cmdRsvd w = 0#24
  · obtain hr' | ho | ⟨ho, hl⟩ := h
    · exact absurd hr hr'
    · exact ⟨_, decode_of_unassigned hr fun i hi => ho (mem_opcodes_iff.2 ⟨i, hi⟩)⟩
    · obtain ⟨i, ho, hf⟩ := mem_scalarOpcodes_iff.1 ho
      exact ⟨_, decode_of_scalar_len hr ho hf hl⟩
  · exact ⟨_, decode_of_rsvd hr⟩

theorem exists_decode_eq_op {w : Word64} (h : ¬InReservedClass w) : ∃ i, decode w = .op i := by
  obtain ⟨hr, hrest⟩ := not_or.1 h
  obtain ⟨ho, hl⟩ := not_or.1 hrest
  obtain ⟨i, hi⟩ := mem_opcodes_iff.1 (not_not.1 ho)
  refine decode_of_row (not_not.1 hr) hi fun hf => ?_
  by_contra hne
  exact hl ⟨mem_scalarOpcodes_iff.2 ⟨i, hi, hf⟩, hne⟩

/-- The function field of units 2 and 3, read off each of their rows (R64, R66). -/
theorem functionField_of_codecUnit {i : Instr} (h : i.opc.extractLsb' 4 4 = 2#4 ∨ i.opc.extractLsb' 4 4 = 3#4) :
    (i.opc.extractLsb' 0 4).extractLsb' 2 2 = 0#2 ∧
    ((i.opc.extractLsb' 0 4).getLsbD 0 = true ↔ i = .makeByteArrayW64 ∨ i = .makeByteArrayA64 i.len ∨
      i = .makeLongBytes i.len ∨ i = .makeLongArray i.len) ∧
    ((i.opc.extractLsb' 0 4).getLsbD 1 = true ↔ i = .makeByteArrayA32 i.len ∨ i = .makeByteArrayA64 i.len ∨
      i = .makeIntArray i.len ∨ i = .makeLongArray i.len) := by
  cases i
  case makeByteArrayW32 | makeByteArrayW64 | makeByteArrayA32 | makeByteArrayA64 | makeIntBytes | makeLongBytes |
    makeIntArray | makeLongArray => simp [Instr.opc, Instr.len]
  all_goals exact absurd h (by decide)

namespace Machine

/-! ### A reserved word (R72) -/

section Turn
variable {s : State} {c : Command} {i : Instr} {p : Payload}

/-- In Busy the core's turn refuses a reserved word (R28, R72). -/
theorem coreTurn_of_reserved {why : Reserved} (hc : s.phase = .busy c) (hd : decode c.cmd = .reserved why) :
    coreTurn s = .next s.refuse := by
  simp only [coreTurn, hc, execCommand, hd, refuse_eq]

/-! ### Assembler lines (R73) -/

theorem assembleWord_is (h : i.format = .S) (word : Word64) : (assembleWord i word).Is i word 0#64 .empty :=
  ⟨decode_encode (wellFormed_of_scalar h), rfl, rfl, rfl⟩

theorem assemblePair_is (h : i.format = .S) (hi lo : Word32) :
    (assemblePair i hi lo).Is i (hi.setWidth 64) (lo.setWidth 64) .empty :=
  ⟨decode_encode (wellFormed_of_scalar h), rfl, rfl, rfl⟩

theorem assembleItems_is (h : i.WellFormed) : (assembleItems i p).Is i 0#64 0#64 p :=
  ⟨decode_encode h, rfl, rfl, rfl⟩

@[simp] theorem Payload.isBytes_ofBytes (bs : List Byte) : (Payload.ofBytes bs).isBytes bs.length = true :=
  Payload.isBytes_of_are ⟨Payload.length_ofBytes bs, Payload.byteList_ofBytes bs⟩

@[simp] theorem Payload.isWords32_ofWords32 (ws : List Word32) : (Payload.ofWords32 ws).isWords32 ws.length = true :=
  Payload.isWords32_of_are ⟨Payload.length_ofWords32 ws, Payload.word32List_ofWords32 ws⟩

@[simp] theorem Payload.isWords64_ofWords64 (ws : List Word64) : (Payload.ofWords64 ws).isWords64 ws.length = true :=
  Payload.isWords64_of_are ⟨Payload.length_ofWords64 ws, Payload.word64List_ofWords64 ws⟩

/-- A line's word is the encoded word of an operation that its payload agrees with (R46). -/
theorem exists_assemble_cmd (l : AsmLine) :
    ∃ i : Instr, (assemble l).cmd = encode i ∧ payloadMatches i (assemble l).input = true := by
  cases l
  case makeByteArrayA32 ws => exact ⟨_, rfl, Payload.isWords32_ofWords32 ws⟩
  case makeByteArrayA64 ws => exact ⟨_, rfl, Payload.isWords64_ofWords64 ws⟩
  case makeIntBytes bs | makeLongBytes bs | makeIntArray bs | makeLongArray bs =>
    exact ⟨_, rfl, Payload.isBytes_ofBytes bs⟩
  all_goals exact ⟨_, rfl, rfl⟩

/-- An agreeing payload has LEN elements (R46). -/
theorem len_of_payloadMatches (h : payloadMatches i p = true) : i.len = p.length := by
  cases hf : i.format with
  | S =>
    rw [payloadMatches_scalar hf, beq_iff_eq] at h
    rw [len_of_scalar hf, h]
  | Q =>
    cases i <;> cases hf <;>
      · obtain ⟨hlen, -⟩ := (Bool.and_eq_true _ _).mp h
        exact (beq_iff_eq.1 hlen).symm

/-- A line whose items fit LEN decodes to an operation with the LEN and the kind of its payload (R46). -/
theorem exists_decode_assemble {l : AsmLine} (h : (assemble l).input.length < 2 ^ 32) :
    ∃ i : Instr, decode (assemble l).cmd = .op i ∧ payloadMatches i (assemble l).input = true ∧
      i.len = (assemble l).input.length := by
  obtain ⟨i, hcmd, hm⟩ := exists_assemble_cmd l
  have hlen := len_of_payloadMatches hm
  exact ⟨i, hcmd ▸ decode_encode (hlen.trans_lt h), hm, hlen⟩

/-! ### Ignored operand bits (R67) -/

/-- What reaches a meaning's outcome is the payload and the rule's answer. -/
theorem exec_hold_congr {d : Command} (hin : c.input = d.input) (hrule : ruleOf i c = ruleOf i d) :
    exec i (s.hold c) = exec i (s.hold d) := by
  have hc := State.hold_phase s c
  have hd := State.hold_phase s d
  cases hm : payloadMatches i c.input with
  | false => rw [exec_mismatch hc hm, exec_mismatch hd (hin ▸ hm), State.hold_refuse, State.hold_refuse]
  | true =>
    obtain hb | hb := Nat.lt_or_ge s.maxBytes (boundedBytes i)
    · rw [exec_over hc hb, exec_over hd hb, State.hold_refuse, State.hold_refuse]
    · rw [exec_admitted hc hm hb, exec_admitted hd (hin ▸ hm) hb, hrule, State.hold_respond, State.hold_respond]

end Turn

/-! ### The obligations -/

/-- Settles O51: the decoder finds the row and the LEN that the encoder wrote. -/
theorem decodeOfEncode : Obligations.DecodeOfEncode := fun _ h => decode_encode h

/-- Settles O52: the word is its three fields, and the decoded command gives each of them back. -/
theorem encodeOfDecode : Obligations.EncodeOfDecode :=
  fun _ _ h => ⟨encode_of_decode h, wellFormed_of_decode h⟩

/-- Settles O33: R72's lists are the opcode map's, so a word of a class decodes to Reserved and any other to an
operation. -/
theorem reservedCommandIsRefused : Obligations.ReservedCommandIsRefused := by
  intro s c hc reserved
  have hclass : reserved ↔ InReservedClass c.cmd :=
    or_congr_right (or_congr_right (and_congr_right' cmdLen_ne_zero_iff.symm))
  refine ⟨fun h => ?_, fun h => exists_decode_eq_op (hclass.not.1 h)⟩
  obtain ⟨why, hd⟩ := exists_decode_eq_reserved (hclass.1 h)
  exact coreTurn_of_reserved hc hd

/-- Settles O53: each class by the word's fields, and the fields as parts of its number. -/
theorem reservedExactlyInThreeClasses : Obligations.ReservedExactlyInThreeClasses := by
  intro w
  refine ⟨decode_eq_rsvdNonzero_iff.trans cmdRsvd_eq_zero_iff.not, decode_eq_unassignedOpcode_iff.trans ?_,
    decode_eq_scalarLenNonzero_iff.trans ?_, exists_decode_eq_op_iff.trans ?_⟩
  · exact and_congr cmdRsvd_eq_zero_iff (forall_congr' fun _ => opc_eq_cmdOpc_iff.not)
  · exact and_congr cmdRsvd_eq_zero_iff (and_congr (exists_congr fun _ => and_congr_left' opc_eq_cmdOpc_iff)
      (cmdLen_eq_zero_iff.not.trans not_lt))
  · exact and_congr cmdRsvd_eq_zero_iff
      (exists_congr fun _ => and_congr opc_eq_cmdOpc_iff (imp_congr_right fun _ => cmdLen_eq_zero_iff))

/-- Settles O54: a decoded word's FN and UNIT are those of its row. -/
theorem codecFunctionFieldStructure : Obligations.CodecFunctionFieldStructure := by
  intro w i h hunit
  obtain ⟨-, ho, -⟩ := decode_op_cases h
  rw [cmdUnit_eq_cmdOpc, ho] at hunit
  rw [cmdFn_eq_cmdOpc, ho]
  exact functionField_of_codecUnit hunit

/-- Settles O55: each form of line puts its operands where R73 says, and every line's payload agrees with its word. -/
theorem assembledLineIsAdmitted : Obligations.AssembledLineIsAdmitted := by
  refine ⟨fun _ => ⟨assembleWord_is rfl _, assembleWord_is rfl _, assembleWord_is rfl _⟩,
    fun _ => ⟨assembleWord_is rfl _, assembleWord_is rfl _, assembleWord_is rfl _, assembleWord_is rfl _,
      assembleWord_is rfl _, assembleWord_is rfl _, assembleWord_is rfl _⟩,
    fun hi lo => ⟨assemblePair_is rfl hi lo, assemblePair_is rfl hi lo, assemblePair_is rfl hi lo⟩,
    fun _ h => assembleItems_is h, fun _ h => assembleItems_is h,
    fun _ h => ⟨assembleItems_is h, assembleItems_is h, assembleItems_is h, assembleItems_is h⟩, fun l h => ?_⟩
  obtain ⟨i, hd, hm, hlen⟩ := exists_decode_assemble h
  refine ⟨i, hd, hm, hlen, fun s ⟨hc, _⟩ ho => ⟨ruleOf i (assemble l), ?_⟩⟩
  exact (coreTurn_of_decode hc hd).trans (exec_admitted hc hm ((overMaxBytes_eq_false i s.maxBytes).1 ho))

/-- Settles O31: no rule reads an operand bit outside its form of R67. -/
theorem ignoredOperandBitsDoNotMatter : Obligations.IgnoredOperandBitsDoNotMatter := by
  intro s c d hin
  refine ⟨fun ha => ?_, fun ha => ?_, fun ha hb => ?_, fun n => ?_⟩
  · have ha : c.opA32 = d.opA32 := ha
    refine ⟨?_, ?_, ?_⟩ <;> exact exec_hold_congr hin (by simp only [ruleOf, ha])
  · have ha : c.opA = d.opA := ha
    refine ⟨?_, ?_, ?_, ?_, ?_, ?_, ?_⟩ <;> exact exec_hold_congr hin (by simp only [ruleOf, ha])
  · have ha : c.opA32 = d.opA32 := ha
    have hb : c.opB32 = d.opB32 := hb
    refine ⟨?_, ?_, ?_⟩ <;> exact exec_hold_congr hin (by simp only [ruleOf, ha, hb])
  · refine ⟨?_, ?_, ?_, ?_, ?_, ?_⟩ <;> exact exec_hold_congr hin (by simp only [ruleOf, hin])

/-- Settles O50, by running the decoder on each word. -/
theorem sampleWordsDecode : Obligations.SampleWordsDecode := by
  refine ⟨?_, ?_, ?_, ?_, ?_, ?_, ?_⟩ <;> decide

end Machine

end Sys2Proof
end

section
/-! PROOFS. Format-S commands in general (30_encoding.md R63, R70), and sub-unit 0, bit_sign_extractor
(40_bit_sign_extractor.md R100 to R102). -/

namespace Sys2Proof.Machine

/-! ### A format-S command with an empty IN is always admitted (R46, R47, R63) -/

section Scalar
variable {s : State} {c : Command} {i : Instr}

/-- R47 names no size for a format-S command. -/
theorem boundedBytes_of_scalar (h : i.format = .S) : boundedBytes i = 0 := by
  cases i <;> cases h <;> rfl

theorem boundedBytes_scalar_le (h : i.format = .S) (maxBytes : Nat) : boundedBytes i ≤ maxBytes :=
  (boundedBytes_of_scalar h).trans_le (Nat.zero_le maxBytes)

/-- The meaning of a format-S command gives the response of its rule. -/
theorem exec_scalar (h : i.format = .S) (hc : s.phase = .busy c) (hlen : c.input.length = 0) :
    exec i s = .next (s.respond (ruleOf i c)) := by
  have hm : payloadMatches i c.input = true := by rw [payloadMatches_scalar h, hlen, beq_self_eq_true]
  exact exec_admitted hc hm (boundedBytes_scalar_le h s.maxBytes)

/-- So does the core's turn on its encoded word. -/
theorem responseOf_coreTurn_scalar (h : i.format = .S) (s : State) (a b : Word64) :
    responseOf (coreTurn (s.hold ⟨encode i, a, b, .empty⟩)) = some (ruleOf i ⟨encode i, a, b, .empty⟩) :=
  responseOf_coreTurn_encode (wellFormed_of_scalar h) a b (payloadMatches_scalar h .empty)
    (boundedBytes_scalar_le h s.maxBytes)

end Scalar

/-! ### The sign bit as a result (R68, R100, R101) -/

theorem resBool_eq_ite (b : Bool) : resBool b = if b then 1#64 else 0#64 := by
  cases b <;> rfl

theorem resBool_ne_not (b : Bool) : resBool b ≠ resBool !b := by
  cases b <;> decide

/-- The rule of `makeBoolean.w32` in terms of A itself: the sign bit of A32 is bit 31 of A. -/
theorem ruleOf_makeBooleanW32 (c : Command) :
    ruleOf .makeBooleanW32 c = .ok (if c.a.getLsbD 31 then 1#64 else 0#64) .empty := by
  have hbit : c.opA32.getLsbD 31 = c.a.getLsbD 31 := by simp [Command.opA32]
  rw [ruleOf, hbit, resBool_eq_ite]

theorem ruleOf_makeBooleanW64 (c : Command) :
    ruleOf .makeBooleanW64 c = .ok (if c.a.getLsbD 63 then 1#64 else 0#64) .empty := by
  rw [ruleOf, Command.opA, resBool_eq_ite]

/-! ### The obligations -/

/-- Settles O1: the command is admitted, and its rule reads bit 31 of A. -/
theorem makeBooleanW32GivesBit31 : Obligations.MakeBooleanW32GivesBit31 := by
  refine ⟨by decide, fun s c ⟨hc, _⟩ hlen => ?_⟩
  rw [exec_scalar rfl hc hlen, ruleOf_makeBooleanW32, State.respond]

/-- Settles O2: the command is admitted, and its rule reads bit 63 of A. -/
theorem makeBooleanW64GivesBit63 : Obligations.MakeBooleanW64GivesBit63 := by
  refine ⟨by decide, fun s c ⟨hc, _⟩ hlen => ?_⟩
  rw [exec_scalar rfl hc hlen, ruleOf_makeBooleanW64, State.respond]

/-- Settles O3: the complement's top bit is the other one, and the two BOOL results differ. -/
theorem complementFlipsSignBit : Obligations.ComplementFlipsSignBit := by
  refine fun s _ => ⟨fun a a' b b' ha => ?_, fun v b b' => ?_⟩
  · have hflip : (a'.extractLsb' 0 32).getLsbD 31 = !(a.extractLsb' 0 32).getLsbD 31 := by
      rw [ha]
      simp only [BitVec.getLsbD_not, Nat.reduceLT, decide_true, Bool.true_and]
    refine ⟨_, _, ?_, responseOf_coreTurn_scalar rfl s a b, responseOf_coreTurn_scalar rfl s a' b'⟩
    rw [Command.opA32, Command.opA32, hflip]
    exact resBool_ne_not _
  · have hflip : (~~~v).getLsbD 63 = !v.getLsbD 63 := by
      simp only [BitVec.getLsbD_not, Nat.reduceLT, decide_true, Bool.true_and]
    refine ⟨_, _, ?_, responseOf_coreTurn_scalar rfl s v b, responseOf_coreTurn_scalar rfl s (~~~v) b'⟩
    rw [Command.opA, Command.opA, hflip]
    exact resBool_ne_not _

end Sys2Proof.Machine
end

section
/-! PROOFS. Sub-unit 1, word32_word64_splitter_joiner (41_word32_word64_splitter_joiner.md R110 to R114). -/

namespace Sys2Proof.Machine

/-! ### The halves of a word as numbers (R110, R111) and joined again (R112, R114) -/

section Halves
variable (v : Word64) (hi lo : Word32)

@[simp] theorem toNat_loHalf : (loHalf v).toNat = v.toNat % 2 ^ 32 := by
  rw [loHalf, BitVec.extractLsb'_toNat, Nat.shiftRight_zero]

@[simp] theorem toNat_hiHalf : (hiHalf v).toNat = v.toNat / 2 ^ 32 := by
  rw [hiHalf, BitVec.extractLsb'_toNat, Nat.shiftRight_eq_div_pow]
  omega

/-- The mask of R112 takes the low half whole, and the OR puts it below the high half. -/
@[simp] theorem toNat_joinHalves : (joinHalves hi lo).toNat = hi.toNat * 2 ^ 32 + lo.toNat := by
  have hhi : (hi.setWidth 64 <<< 32).toNat = hi.toNat <<< 32 := by
    rw [BitVec.toNat_shiftLeft, BitVec.toNat_setWidth, Nat.shiftLeft_eq, Nat.shiftLeft_eq]
    omega
  have hlo : (lo.setWidth 64 &&& 0x00000000FFFFFFFF#64).toNat = lo.toNat := by
    have hmask : (0x00000000FFFFFFFF#64).toNat = 2 ^ 32 - 1 := rfl
    rw [BitVec.toNat_and, hmask, Nat.and_two_pow_sub_one_eq_mod, BitVec.toNat_setWidth]
    omega
  rw [joinHalves, BitVec.toNat_or, hhi, hlo, ← Nat.shiftLeft_add_eq_or_of_lt lo.isLt, Nat.shiftLeft_eq]

@[simp] theorem loHalf_joinHalves : loHalf (joinHalves hi lo) = lo := by
  apply BitVec.eq_of_toNat_eq
  rw [toNat_loHalf, toNat_joinHalves]
  omega

@[simp] theorem hiHalf_joinHalves : hiHalf (joinHalves hi lo) = hi := by
  apply BitVec.eq_of_toNat_eq
  rw [toNat_hiHalf, toNat_joinHalves]
  omega

@[simp] theorem joinHalves_halves : joinHalves (hiHalf v) (loHalf v) = v := by
  apply BitVec.eq_of_toNat_eq
  rw [toNat_joinHalves, toNat_loHalf, toNat_hiHalf]
  omega

/-- A Word32 result, zero-extended, is the same number (R68). -/
theorem resWord32_eq_ofNat (w : Word32) : resWord32 w = BitVec.ofNat 64 w.toNat := by
  rw [resWord32, ← BitVec.ofNat_toNat]

/-- The low half of a zero-extended word is the word. -/
@[simp] theorem loHalf_resWord32 (w : Word32) : loHalf (resWord32 w) = w := by
  apply BitVec.eq_of_toNat_eq
  rw [toNat_loHalf, resWord32, BitVec.toNat_setWidth]
  omega

end Halves

/-! ### The rules in terms of A and B themselves (R110 to R113) -/

section Rule
variable (c : Command)

theorem ruleOf_extractLo : ruleOf .extractLo c = .ok (BitVec.ofNat 64 (c.a.toNat % 2 ^ 32)) .empty := by
  rw [ruleOf, resWord32_eq_ofNat, toNat_loHalf, Command.opA]

theorem ruleOf_extractHi : ruleOf .extractHi c = .ok (BitVec.ofNat 64 (c.a.toNat / 2 ^ 32)) .empty := by
  rw [ruleOf, resWord32_eq_ofNat, toNat_hiHalf, Command.opA]

/-- A32 and B32 are the low halves of A and B (R67). -/
theorem ruleOf_makeLongHl_loHalves : ruleOf .makeLongHl c = .ok (joinHalves (loHalf c.a) (loHalf c.b)) .empty := rfl

theorem ruleOf_makeLongHl :
    ruleOf .makeLongHl c =
      .ok (BitVec.ofNat 64 (c.a.toNat % 2 ^ 32 * 2 ^ 32 + c.b.toNat % 2 ^ 32)) .empty := by
  rw [ruleOf_makeLongHl_loHalves, ← toNat_loHalf, ← toNat_loHalf, ← toNat_joinHalves, BitVec.ofNat_toNat,
    BitVec.setWidth_eq]

theorem ruleOf_makeIntFold :
    ruleOf .makeIntFold c = .ok (BitVec.ofNat 64 (c.a.toNat % 2 ^ 32 ^^^ c.a.toNat / 2 ^ 32)) .empty := by
  rw [ruleOf, resWord32_eq_ofNat, BitVec.toNat_xor, toNat_loHalf, toNat_hiHalf, Command.opA]

end Rule

/-! ### The obligations -/

/-- Settles O8: each command is admitted, the low half of a zero-extended half is the half, and joining inverts
splitting. -/
theorem splitJoinRoundTrip : Obligations.SplitJoinRoundTrip := by
  refine fun s _ => ⟨fun v b => ?_, fun hi lo => ?_⟩
  · have hjoin : joinHalves (loHalf (resWord32 (hiHalf v))) (loHalf (resWord32 (loHalf v))) = v := by
      rw [loHalf_resWord32, loHalf_resWord32, joinHalves_halves]
    refine ⟨resWord32 (hiHalf v), resWord32 (loHalf v), responseOf_coreTurn_scalar rfl s v b,
      responseOf_coreTurn_scalar rfl s v b, ?_⟩
    rw [responseOf_coreTurn_scalar rfl, ruleOf_makeLongHl_loHalves, hjoin]
  · have hlow : ∀ w : Word32, loHalf (w.setWidth 64) = w := loHalf_resWord32
    refine ⟨joinHalves hi lo, ?_, ?_, ?_⟩
    · rw [assemble, assemblePair, responseOf_coreTurn_scalar rfl, ruleOf_makeLongHl_loHalves, hlow, hlow]
    · rw [assemble, assembleWord, responseOf_coreTurn_scalar rfl, ruleOf, Command.opA, hiHalf_joinHalves, resWord32]
    · rw [assemble, assembleWord, responseOf_coreTurn_scalar rfl, ruleOf, Command.opA, loHalf_joinHalves, resWord32]

/-- Settles O4: the command is admitted, and its rule takes A modulo 2^32. -/
theorem extractLoGivesLowHalf : Obligations.ExtractLoGivesLowHalf := by
  refine ⟨by decide, fun s c ⟨hc, _⟩ hlen => ?_⟩
  rw [exec_scalar rfl hc hlen, ruleOf_extractLo, State.respond]

/-- Settles O5: the command is admitted, and its rule divides A by 2^32. -/
theorem extractHiGivesHighHalf : Obligations.ExtractHiGivesHighHalf := by
  refine ⟨by decide, fun s c ⟨hc, _⟩ hlen => ?_⟩
  rw [exec_scalar rfl hc hlen, ruleOf_extractHi, State.respond]

/-- Settles O6: the command is admitted, and its rule joins the low halves of A and B. -/
theorem makeLongHlJoinsHalves : Obligations.MakeLongHlJoinsHalves := by
  refine ⟨by decide, fun s c ⟨hc, _⟩ hlen => ?_⟩
  rw [exec_scalar rfl hc hlen, ruleOf_makeLongHl, State.respond]

/-- Settles O7: the command is admitted, and its rule folds the two halves of A. -/
theorem makeIntFoldXorsHalves : Obligations.MakeIntFoldXorsHalves := by
  refine ⟨by decide, fun s c ⟨hc, _⟩ hlen => ?_⟩
  rw [exec_scalar rfl hc hlen, ruleOf_makeIntFold, State.respond]

end Sys2Proof.Machine
end

section
/-! PROOFS. Sub-unit 2, word_to_le_bytes (42_word_to_le_bytes.md R130 to R135), and what the core's turn answers to an
assembled line of sub-units 2 and 3. -/

namespace Sys2Proof

/-- The command word written as a number, LEN above OPC (30_encoding.md R60, R73), decodes to its command. -/
theorem decode_ofNat_len_opc {i : Instr} (h : i.WellFormed) :
    decode (BitVec.ofNat 64 (i.len * 2 ^ 32 + i.opc.toNat)) = .op i := by
  rw [← Laws.EncodedWord.of_len i h, BitVec.ofNat_toNat, BitVec.setWidth_eq, decode_encode h]

namespace Machine

/-! ### The bytes of a word and of an array, by index (20_memory.md R41, R42) -/

/-- In a concatenation of blocks of one length `n`, element j is element j mod n of block j div n. -/
theorem getD_flatMap_of_length {α β : Type} {f : α → List β} {n : Nat} (hf : ∀ x, (f x).length = n) (x₀ : α) (y₀ : β)
    (xs : List α) (j : Nat) (hj : j < n * xs.length) :
    (xs.flatMap f).getD j y₀ = (f (xs.getD (j / n) x₀)).getD (j % n) y₀ := by
  induction xs generalizing j with
  | nil => exact absurd hj (Nat.not_lt_zero j)
  | cons x xs ih =>
    rw [List.flatMap_cons]
    obtain hlt | hge := Nat.lt_or_ge j n
    · rw [List.getD_append _ _ _ _ (by rwa [hf]), Nat.div_eq_of_lt hlt, Nat.mod_eq_of_lt hlt, List.getD_cons_zero]
    · have hn : 0 < n := Nat.pos_of_mul_pos_right (Nat.zero_lt_of_lt hj)
      have hrest : j - n < n * xs.length := by
        rw [List.length_cons, Nat.mul_succ] at hj
        omega
      rw [List.getD_append_right _ _ _ _ (by rwa [hf]), hf, ih _ hrest, Nat.mod_eq_sub_mod hge,
        Nat.div_eq_sub_div hn hge, List.getD_cons_succ]

theorem getD_leSeq4 (ws : List Word32) {j : Nat} (hj : j < 4 * ws.length) :
    (leSeq4 ws).getD j 0#8 = (ws.getD (j / 4) 0#32).extractLsb' (8 * (j % 4)) 8 :=
  (getD_flatMap_of_length length_le4 0#32 0#8 ws j hj).trans (getD_le4 _ _ (Nat.mod_lt j (by decide)))

theorem getD_leSeq8 (ws : List Word64) {j : Nat} (hj : j < 8 * ws.length) :
    (leSeq8 ws).getD j 0#8 = (ws.getD (j / 8) 0#64).extractLsb' (8 * (j % 8)) 8 :=
  (getD_flatMap_of_length length_le8 0#64 0#8 ws j hj).trans (getD_le8 _ _ (Nat.mod_lt j (by decide)))

/-- The bytes of A32 are the four low bytes of A (R67, R130). -/
theorem le4_opA32 (c : Command) :
    le4 c.opA32 = [c.a.extractLsb' 0 8, c.a.extractLsb' 8 8, c.a.extractLsb' 16 8, c.a.extractLsb' 24 8] := by
  have hbyte {k : Nat} (hk : k + 8 ≤ 32) : c.opA32.extractLsb' k 8 = c.a.extractLsb' k 8 :=
    extractLsb'_loHalf c.a hk
  simp [le4, hbyte]

/-! ### The scalar rules in terms of A itself (R130, R131) -/

theorem ruleOf_makeByteArrayW32 (c : Command) :
    ruleOf .makeByteArrayW32 c = .ok 0#64 (.bytes
      [c.a.extractLsb' 0 8, c.a.extractLsb' 8 8, c.a.extractLsb' 16 8, c.a.extractLsb' 24 8]) := by
  rw [ruleOf, le4_opA32]
  rfl

theorem ruleOf_makeByteArrayW64 (c : Command) :
    ruleOf .makeByteArrayW64 c = .ok 0#64 (.bytes ((List.range 8).map fun i => c.a.extractLsb' (8 * i) 8)) := by
  rw [ruleOf, le8_eq_map]
  rfl

/-! ### Parsing a word's bytes (R135) -/

@[simp] theorem parseWord32_le4 (w : Word32) : parseWord32 (le4 w) = some w := by
  rw [le4, parseWord32_four, fromLE4_bytes]

@[simp] theorem parseWord64_le8 (w : Word64) : parseWord64 (le8 w) = some w := by
  rw [le8, parseWord64_eight, fromLE8_bytes]

/-! ### The core's turn on an assembled line (30_encoding.md R70, R73) -/

section Line
variable {s : State} {i : Instr} {p : Payload} {r : Response} {bs : List Byte}

/-- An admitted line of items gets what the rule answers to its payload. -/
theorem responseOf_assembleItems (i : Instr) (hw : i.WellFormed) (hm : payloadMatches i p = true)
    (hb : boundedBytes i ≤ s.maxBytes) (hr : ruleOf i (assembleItems i p) = r) :
    responseOf (coreTurn (s.hold (assembleItems i p))) = some r :=
  (responseOf_coreTurn_encode hw 0#64 0#64 hm hb).trans (congrArg some hr)

/-- The line's word is zero-extended into A, so its A32 is the word itself. -/
theorem responseOf_makeByteArrayW32 (s : State) (w : Word32) :
    responseOf (coreTurn (s.hold (assemble (.makeByteArrayW32 w)))) = some (.ok 0#64 (.ofBytes (le4 w))) := by
  have hlow : (assembleWord .makeByteArrayW32 (w.setWidth 64)).opA32 = w := loHalf_resWord32 w
  refine (responseOf_coreTurn_scalar rfl s _ _).trans ?_
  rw [ruleOf, ← assembleWord, hlow]

theorem responseOf_makeByteArrayW64 (s : State) (w : Word64) :
    responseOf (coreTurn (s.hold (assemble (.makeByteArrayW64 w)))) = some (.ok 0#64 (.ofBytes (le8 w))) :=
  responseOf_coreTurn_scalar rfl s w 0#64

theorem responseOf_makeByteArrayA32 {ws : List Word32} (hlen : ws.length < 2 ^ 32) (hmax : 4 * ws.length ≤ s.maxBytes) :
    responseOf (coreTurn (s.hold (assemble (.makeByteArrayA32 ws)))) = some (.ok 0#64 (.ofBytes (leSeq4 ws))) :=
  responseOf_assembleItems (.makeByteArrayA32 ws.length) hlen (Payload.isWords32_ofWords32 ws) hmax
    (by simp [ruleOf, assembleItems])

theorem responseOf_makeByteArrayA64 {ws : List Word64} (hlen : ws.length < 2 ^ 32) (hmax : 8 * ws.length ≤ s.maxBytes) :
    responseOf (coreTurn (s.hold (assemble (.makeByteArrayA64 ws)))) = some (.ok 0#64 (.ofBytes (leSeq8 ws))) :=
  responseOf_assembleItems (.makeByteArrayA64 ws.length) hlen (Payload.isWords64_ofWords64 ws) hmax
    (by simp [ruleOf, assembleItems])

/-- A Word32 parsed from a line's bytes is zero-extended on RES (R68, R150). -/
theorem responseOf_makeIntBytes {w : Word32} (hlen : bs.length < 2 ^ 32) (hmax : bs.length ≤ s.maxBytes)
    (hw : parseWord32 bs = some w) :
    responseOf (coreTurn (s.hold (assemble (.makeIntBytes bs)))) = some (.ok (w.setWidth 64) .empty) :=
  responseOf_assembleItems (.makeIntBytes bs.length) hlen (Payload.isBytes_ofBytes bs) hmax
    (by simp [ruleOf, assembleItems, hw, resWord32])

theorem responseOf_makeLongBytes {w : Word64} (hlen : bs.length < 2 ^ 32) (hmax : bs.length ≤ s.maxBytes)
    (hw : parseWord64 bs = some w) :
    responseOf (coreTurn (s.hold (assemble (.makeLongBytes bs)))) = some (.ok w .empty) :=
  responseOf_assembleItems (.makeLongBytes bs.length) hlen (Payload.isBytes_ofBytes bs) hmax
    (by simp [ruleOf, assembleItems, hw])

theorem responseOf_makeIntArray (hlen : bs.length < 2 ^ 32) (hmax : bs.length ≤ s.maxBytes) (h4 : bs.length % 4 = 0) :
    responseOf (coreTurn (s.hold (assemble (.makeIntArray bs)))) = some (.ok 0#64 (.ofWords32 (parseSeq4 bs))) :=
  responseOf_assembleItems (.makeIntArray bs.length) hlen (Payload.isBytes_ofBytes bs) hmax
    (by simp [ruleOf, assembleItems, h4])

theorem responseOf_makeLongArray (hlen : bs.length < 2 ^ 32) (hmax : bs.length ≤ s.maxBytes) (h8 : bs.length % 8 = 0) :
    responseOf (coreTurn (s.hold (assemble (.makeLongArray bs)))) = some (.ok 0#64 (.ofWords64 (parseSeq8 bs))) :=
  responseOf_assembleItems (.makeLongArray bs.length) hlen (Payload.isBytes_ofBytes bs) hmax
    (by simp [ruleOf, assembleItems, h8])

end Line

/-! ### The obligations -/

/-- Settles O11: the rule writes the array's bytes, block by block; another kind, length or size is refused. -/
theorem makeByteArrayA32GivesBytes : Obligations.MakeByteArrayA32GivesBytes := by
  refine ⟨fun n hn => decode_ofNat_len_opc (i := .makeByteArrayA32 n) hn, fun s c ws ⟨hc, _⟩ hin hmax => ?_,
    fun s c n hc hbad => ?_⟩
  · refine ⟨leSeq4 ws, ?_, length_leSeq4 ws, fun j => getD_leSeq4 ws⟩
    have hm : payloadMatches (.makeByteArrayA32 ws.length) c.input = true := Payload.isWords32_of_are hin
    rw [exec_admitted hc hm hmax, ruleOf, hin.2, State.respond]
  · obtain hkind | hsize := hbad
    · exact exec_mismatch hc (isWords32_eq_false hkind)
    · exact exec_over hc hsize

/-- Settles O12, as O11 with blocks of eight bytes. -/
theorem makeByteArrayA64GivesBytes : Obligations.MakeByteArrayA64GivesBytes := by
  refine ⟨fun n hn => decode_ofNat_len_opc (i := .makeByteArrayA64 n) hn, fun s c ws ⟨hc, _⟩ hin hmax => ?_,
    fun s c n hc hbad => ?_⟩
  · refine ⟨leSeq8 ws, ?_, length_leSeq8 ws, fun j => getD_leSeq8 ws⟩
    have hm : payloadMatches (.makeByteArrayA64 ws.length) c.input = true := Payload.isWords64_of_are hin
    rw [exec_admitted hc hm hmax, ruleOf, hin.2, State.respond]
  · obtain hkind | hsize := hbad
    · exact exec_mismatch hc (isWords64_eq_false hkind)
    · exact exec_over hc hsize

/-- Settles O18: each serialiser answers the little-endian bytes, whose number the parse admits, and parsing inverts
the byte order. -/
theorem parseOfSerialiseRoundTrip : Obligations.ParseOfSerialiseRoundTrip := by
  refine fun s _ hmin => ⟨fun w => ?_, fun w => ?_, fun ws hlen hmax => ?_, fun ws hlen hmax => ?_⟩
  · have hmax : (le4 w).length ≤ s.maxBytes := by rw [length_le4]; omega
    exact ⟨le4 w, responseOf_makeByteArrayW32 s w, responseOf_makeIntBytes (by simp) hmax (parseWord32_le4 w)⟩
  · exact ⟨le8 w, responseOf_makeByteArrayW64 s w, responseOf_makeLongBytes (by simp) hmin (parseWord64_le8 w)⟩
  · have hbytes := length_leSeq4 ws
    refine ⟨leSeq4 ws, responseOf_makeByteArrayA32 (by omega) hmax, ?_⟩
    rw [responseOf_makeIntArray (by omega) (by omega) (by omega), parseSeq4_leSeq4]
  · have hbytes := length_leSeq8 ws
    refine ⟨leSeq8 ws, responseOf_makeByteArrayA64 (by omega) hmax, ?_⟩
    rw [responseOf_makeLongArray (by omega) (by omega) (by omega), parseSeq8_leSeq8]

/-- Settles O9: the command is admitted, and its rule writes the bytes of A's low half. -/
theorem makeByteArrayW32GivesBytes : Obligations.MakeByteArrayW32GivesBytes := by
  refine ⟨by decide, fun s c ⟨hc, _⟩ hlen => ?_⟩
  rw [exec_scalar rfl hc hlen, ruleOf_makeByteArrayW32, State.respond]

/-- Settles O10: the command is admitted, and its rule writes the bytes of A in index order. -/
theorem makeByteArrayW64GivesBytes : Obligations.MakeByteArrayW64GivesBytes := by
  refine ⟨by decide, fun s c ⟨hc, _⟩ hlen => ?_⟩
  rw [exec_scalar rfl hc hlen, ruleOf_makeByteArrayW64, State.respond]

end Machine

end Sys2Proof
end

section
/-! PROOFS. Sub-unit 3, bytes_to_le_word (43_bytes_to_le_word.md R150 to R155). -/

namespace Sys2Proof.Machine

/-! ### Serialising what a parse accepted (R43, R155) -/

section Inverse
variable {bs : List Byte}

theorem le4_of_parseWord32 {w : Word32} (h : parseWord32 bs = some w) : le4 w = bs := by
  unfold parseWord32 at h
  split at h
  · cases h; exact le4_fromLE4 ..
  · cases h

theorem le8_of_parseWord64 {w : Word64} (h : parseWord64 bs = some w) : le8 w = bs := by
  unfold parseWord64 at h
  split at h
  · cases h; exact le8_fromLE8 ..
  · cases h

/-- Whole groups of four bytes lose nothing: fewer than four bytes left over are none. -/
theorem leSeq4_parseSeq4 (h : bs.length % 4 = 0) : leSeq4 (parseSeq4 bs) = bs := by
  induction bs using parseSeq4.induct with
  | case1 b0 b1 b2 b3 rest ih =>
    have hrest : rest.length % 4 = 0 := (Nat.add_mod_right rest.length 4).symm.trans h
    rw [parseSeq4_step, leSeq4_cons, le4_fromLE4, ih hrest]
    rfl
  | case2 bs hshort =>
    have hparse : parseSeq4 bs = [] := by rw [parseSeq4]; exact hshort
    have hdiv : 0 = bs.length / 4 := by rw [← length_parseSeq4, hparse, List.length_nil]
    have hnil : bs = [] := List.eq_nil_of_length_eq_zero (by omega)
    rw [hparse, hnil, leSeq4_nil]

theorem leSeq8_parseSeq8 (h : bs.length % 8 = 0) : leSeq8 (parseSeq8 bs) = bs := by
  induction bs using parseSeq8.induct with
  | case1 b0 b1 b2 b3 b4 b5 b6 b7 rest ih =>
    have hrest : rest.length % 8 = 0 := (Nat.add_mod_right rest.length 8).symm.trans h
    rw [parseSeq8_step, leSeq8_cons, le8_fromLE8, ih hrest]
    rfl
  | case2 bs hshort =>
    have hparse : parseSeq8 bs = [] := by rw [parseSeq8]; exact hshort
    have hdiv : 0 = bs.length / 8 := by rw [← length_parseSeq8, hparse, List.length_nil]
    have hnil : bs = [] := List.eq_nil_of_length_eq_zero (by omega)
    rw [hparse, hnil, leSeq8_nil]

/-! ### The words of a parsed array, by index (R43) -/

/-- Byte k of word i of the array is byte 4i + k of the sequence. -/
theorem extractLsb'_getD_parseSeq4 (h : bs.length % 4 = 0) {i k : Nat} (hi : i < bs.length / 4) (hk : k < 4) :
    ((parseSeq4 bs).getD i 0#32).extractLsb' (8 * k) 8 = bs.getD (4 * i + k) 0#8 := by
  have hj : 4 * i + k < 4 * (parseSeq4 bs).length := by rw [length_parseSeq4]; omega
  have hbyte := getD_leSeq4 (parseSeq4 bs) hj
  rw [leSeq4_parseSeq4 h, show (4 * i + k) / 4 = i by omega, show (4 * i + k) % 4 = k by omega] at hbyte
  exact hbyte.symm

theorem extractLsb'_getD_parseSeq8 (h : bs.length % 8 = 0) {i k : Nat} (hi : i < bs.length / 8) (hk : k < 8) :
    ((parseSeq8 bs).getD i 0#64).extractLsb' (8 * k) 8 = bs.getD (8 * i + k) 0#8 := by
  have hj : 8 * i + k < 8 * (parseSeq8 bs).length := by rw [length_parseSeq8]; omega
  have hbyte := getD_leSeq8 (parseSeq8 bs) hj
  rw [leSeq8_parseSeq8 h, show (8 * i + k) / 8 = i by omega, show (8 * i + k) % 8 = k by omega] at hbyte
  exact hbyte.symm

theorem getD_parseSeq4 (h : bs.length % 4 = 0) {i : Nat} (hi : i < bs.length / 4) :
    (parseSeq4 bs).getD i 0#32 =
      fromLE4 (bs.getD (4 * i) 0#8) (bs.getD (4 * i + 1) 0#8) (bs.getD (4 * i + 2) 0#8) (bs.getD (4 * i + 3) 0#8) := by
  have hbyte (k : Nat) (hk : k < 4) := extractLsb'_getD_parseSeq4 h hi hk
  rw [← hbyte 1 (by decide), ← hbyte 2 (by decide), ← hbyte 3 (by decide), ← Nat.add_zero (4 * i),
    ← hbyte 0 (by decide)]
  exact (fromLE4_bytes _).symm

theorem getD_parseSeq8 (h : bs.length % 8 = 0) {i : Nat} (hi : i < bs.length / 8) :
    (parseSeq8 bs).getD i 0#64 =
      fromLE8 (bs.getD (8 * i) 0#8) (bs.getD (8 * i + 1) 0#8) (bs.getD (8 * i + 2) 0#8) (bs.getD (8 * i + 3) 0#8)
        (bs.getD (8 * i + 4) 0#8) (bs.getD (8 * i + 5) 0#8) (bs.getD (8 * i + 6) 0#8) (bs.getD (8 * i + 7) 0#8) := by
  have hbyte (k : Nat) (hk : k < 8) := extractLsb'_getD_parseSeq8 h hi hk
  rw [← hbyte 1 (by decide), ← hbyte 2 (by decide), ← hbyte 3 (by decide), ← hbyte 4 (by decide),
    ← hbyte 5 (by decide), ← hbyte 6 (by decide), ← hbyte 7 (by decide), ← Nat.add_zero (8 * i),
    ← hbyte 0 (by decide)]
  exact (fromLE8_bytes _).symm

end Inverse

/-! ### The parse rules by what the bytes parse to (R150 to R153) -/

section Rule
variable {c : Command} {n : Nat}

theorem ruleOf_makeIntBytes_of_some {w : Word32} (h : parseWord32 c.input.byteList = some w) :
    ruleOf (.makeIntBytes n) c = .ok (resWord32 w) .empty := by
  simp only [ruleOf, h]

theorem ruleOf_makeIntBytes_of_length_ne (h : c.input.byteList.length ≠ 4) :
    ruleOf (.makeIntBytes n) c = .err .invalidLength := by
  simp only [ruleOf, parseWord32_eq_none h]

theorem ruleOf_makeLongBytes_of_some {w : Word64} (h : parseWord64 c.input.byteList = some w) :
    ruleOf (.makeLongBytes n) c = .ok w .empty := by
  simp only [ruleOf, h]

theorem ruleOf_makeLongBytes_of_length_ne (h : c.input.byteList.length ≠ 8) :
    ruleOf (.makeLongBytes n) c = .err .invalidLength := by
  simp only [ruleOf, parseWord64_eq_none h]

theorem ruleOf_makeIntArray_of_dvd (h : n % 4 = 0) :
    ruleOf (.makeIntArray n) c = .ok 0#64 (.ofWords32 (parseSeq4 c.input.byteList)) :=
  if_neg (not_not.2 h)

theorem ruleOf_makeIntArray_of_not_dvd (h : n % 4 ≠ 0) : ruleOf (.makeIntArray n) c = .err .invalidLength :=
  if_pos h

theorem ruleOf_makeLongArray_of_dvd (h : n % 8 = 0) :
    ruleOf (.makeLongArray n) c = .ok 0#64 (.ofWords64 (parseSeq8 c.input.byteList)) :=
  if_neg (not_not.2 h)

theorem ruleOf_makeLongArray_of_not_dvd (h : n % 8 ≠ 0) : ruleOf (.makeLongArray n) c = .err .invalidLength :=
  if_pos h

end Rule

/-! ### The obligations -/

/-- Settles O14: the command is admitted, and its rule accepts four bytes and no other number. -/
theorem makeIntBytesParsesFourBytes : Obligations.MakeIntBytesParsesFourBytes := by
  refine ⟨fun n hn => decode_ofNat_len_opc (i := .makeIntBytes n) hn, fun s c b0 b1 b2 b3 ⟨hc, _⟩ hin hmax => ?_,
    fun s c bs ⟨hc, _⟩ hin hmax hlen => ?_⟩
  · have hw : parseWord32 c.input.byteList = some (fromLE4 b0 b1 b2 b3) := by rw [hin.2, parseWord32_four]
    have hm : payloadMatches (.makeIntBytes 4) c.input = true := Payload.isBytes_of_are hin
    rw [exec_admitted hc hm hmax, ruleOf_makeIntBytes_of_some hw, resWord32_eq_append, fromLE4, State.respond]
  · have hm : payloadMatches (.makeIntBytes bs.length) c.input = true := Payload.isBytes_of_are hin
    rw [exec_admitted hc hm hmax, ruleOf_makeIntBytes_of_length_ne (hin.2 ▸ hlen), State.respond]

/-- Settles O15, as O14 with eight bytes. -/
theorem makeLongBytesParsesEightBytes : Obligations.MakeLongBytesParsesEightBytes := by
  refine ⟨fun n hn => decode_ofNat_len_opc (i := .makeLongBytes n) hn,
    fun s c b0 b1 b2 b3 b4 b5 b6 b7 ⟨hc, _⟩ hin hmax => ?_, fun s c bs ⟨hc, _⟩ hin hmax hlen => ?_⟩
  · have hw : parseWord64 c.input.byteList = some (fromLE8 b0 b1 b2 b3 b4 b5 b6 b7) := by
      rw [hin.2, parseWord64_eight]
    have hm : payloadMatches (.makeLongBytes 8) c.input = true := Payload.isBytes_of_are hin
    rw [exec_admitted hc hm hmax, ruleOf_makeLongBytes_of_some hw, fromLE8, State.respond]
  · have hm : payloadMatches (.makeLongBytes bs.length) c.input = true := Payload.isBytes_of_are hin
    rw [exec_admitted hc hm hmax, ruleOf_makeLongBytes_of_length_ne (hin.2 ▸ hlen), State.respond]

/-- Settles O16: the command is admitted, and its rule parses group by group where 4 divides the length. -/
theorem makeIntArrayParsesWords : Obligations.MakeIntArrayParsesWords := by
  refine ⟨fun n hn => decode_ofNat_len_opc (i := .makeIntArray n) hn, fun s c bs ⟨hc, _⟩ hin hmax => ?_⟩
  have hm : payloadMatches (.makeIntArray bs.length) c.input = true := Payload.isBytes_of_are hin
  rw [exec_admitted hc hm hmax]
  refine ⟨fun h4 => ⟨parseSeq4 bs, ?_, length_parseSeq4 bs, fun i hi => getD_parseSeq4 h4 hi⟩, fun h4 => ?_⟩
  · rw [ruleOf_makeIntArray_of_dvd h4, hin.2, State.respond]
  · rw [ruleOf_makeIntArray_of_not_dvd h4, State.respond]

/-- Settles O17, as O16 with groups of eight bytes. -/
theorem makeLongArrayParsesWords : Obligations.MakeLongArrayParsesWords := by
  refine ⟨fun n hn => decode_ofNat_len_opc (i := .makeLongArray n) hn, fun s c bs ⟨hc, _⟩ hin hmax => ?_⟩
  have hm : payloadMatches (.makeLongArray bs.length) c.input = true := Payload.isBytes_of_are hin
  rw [exec_admitted hc hm hmax]
  refine ⟨fun h8 => ⟨parseSeq8 bs, ?_, length_parseSeq8 bs, fun i hi => getD_parseSeq8 h8 hi⟩, fun h8 => ?_⟩
  · rw [ruleOf_makeLongArray_of_dvd h8, hin.2, State.respond]
  · rw [ruleOf_makeLongArray_of_not_dvd h8, State.respond]

/-- Settles O19: each parse answers the word or the array of the bytes, and the byte order inverts it. -/
theorem serialiseOfParseRoundTrip : Obligations.SerialiseOfParseRoundTrip := by
  refine fun s bs _ hlen hmax => ⟨fun h4 => ?_, fun h8 => ?_, fun h4 => ?_, fun h8 => ?_⟩
  · obtain ⟨w, hw⟩ := parseWord32_isSome h4
    refine ⟨w, responseOf_makeIntBytes hlen hmax hw, ?_⟩
    rw [responseOf_makeByteArrayW32, le4_of_parseWord32 hw]
  · obtain ⟨w, hw⟩ := parseWord64_isSome h8
    refine ⟨w, responseOf_makeLongBytes hlen hmax hw, ?_⟩
    rw [responseOf_makeByteArrayW64, le8_of_parseWord64 hw]
  · have hwords := length_parseSeq4 bs
    refine ⟨parseSeq4 bs, responseOf_makeIntArray hlen hmax h4, ?_⟩
    rw [responseOf_makeByteArrayA32 (by omega) (by omega), leSeq4_parseSeq4 h4]
  · have hwords := length_parseSeq8 bs
    refine ⟨parseSeq8 bs, responseOf_makeLongArray hlen hmax h8, ?_⟩
    rw [responseOf_makeByteArrayA64 (by omega) (by omega), leSeq8_parseSeq8 h8]

end Sys2Proof.Machine
end

section
/-! PROOFS. Sub-unit 4, ieee754_unit_float_constructor (44_ieee754_unit_float_constructor.md R170 to R174). -/

namespace Sys2Proof.Machine

/-! ### The kept bits as a number (R170 to R172) -/

/-- The two fields of R171 do not overlap, so the OR adds them. -/
@[simp] theorem toNat_joinTop53 (hi lo : Word32) :
    (joinTop53 hi lo).toNat = hi.toNat / 2 ^ 6 * 2 ^ 27 + lo.toNat / 2 ^ 5 := by
  have hhi : ((hi >>> 6).setWidth 64 <<< 27).toNat = (hi.toNat / 2 ^ 6) <<< 27 := by
    rw [BitVec.toNat_shiftLeft, BitVec.toNat_setWidth, BitVec.toNat_ushiftRight, Nat.shiftLeft_eq, Nat.shiftLeft_eq,
      Nat.shiftRight_eq_div_pow]
    omega
  have hlo : ((lo >>> 5).setWidth 64).toNat = lo.toNat / 2 ^ 5 := by
    rw [BitVec.toNat_setWidth_of_le (by decide), BitVec.toNat_ushiftRight, Nat.shiftRight_eq_div_pow]
  have hfit : lo.toNat / 2 ^ 5 < 2 ^ 27 := by omega
  rw [joinTop53, BitVec.toNat_or, hhi, hlo, ← Nat.shiftLeft_add_eq_or_of_lt hfit, Nat.shiftLeft_eq]

theorem toNat_opA32 (c : Command) : c.opA32.toNat = c.a.toNat % 2 ^ 32 := toNat_loHalf c.a

theorem toNat_opB32 (c : Command) : c.opB32.toNat = c.b.toNat % 2 ^ 32 := toNat_loHalf c.b

/-- A zero-extended word is its own low half as a number. -/
theorem toNat_setWidth_mod (w : Word32) : (w.setWidth 64).toNat % 2 ^ 32 = w.toNat := by
  rw [BitVec.toNat_setWidth_of_le (by decide), BitVec.toNat_mod_cancel]

/-! ### The rules in terms of A and B themselves -/

section Rule
variable (c : Command)

theorem ruleOf_makeDoubleW64 : ruleOf .makeDoubleW64 c = .ok (bin64Exact (c.a.toNat / 2 ^ 11) 53) .empty := by
  rw [ruleOf, BitVec.toNat_ushiftRight, Nat.shiftRight_eq_div_pow, Command.opA]

theorem ruleOf_makeDoubleW32x2 :
    ruleOf .makeDoubleW32x2 c =
      .ok (bin64Exact (c.a.toNat % 2 ^ 32 / 2 ^ 6 * 2 ^ 27 + c.b.toNat % 2 ^ 32 / 2 ^ 5) 53) .empty := by
  rw [ruleOf, toNat_joinTop53, toNat_opA32, toNat_opB32]

theorem ruleOf_makeFloatW32 :
    ruleOf .makeFloatW32 c = .ok (0#32 ++ bin32Exact (c.a.toNat % 2 ^ 32 / 2 ^ 8) 24) .empty := by
  rw [ruleOf, resWord32_eq_append, BitVec.toNat_ushiftRight, Nat.shiftRight_eq_div_pow, toNat_opA32]

end Rule

/-! ### The core's turn on an assembled line (R73) -/

section Line
variable (s : State)

theorem responseOf_makeDoubleW64 (v : Word64) :
    responseOf (coreTurn (s.hold (assemble (.makeDoubleW64 v)))) =
      some (.ok (bin64Exact (v.toNat / 2 ^ 11) 53) .empty) := by
  rw [assemble, assembleWord, responseOf_coreTurn_scalar rfl, ruleOf_makeDoubleW64]

theorem responseOf_makeDoubleW32x2 (hi lo : Word32) :
    responseOf (coreTurn (s.hold (assemble (.makeDoubleW32x2 hi lo)))) =
      some (.ok (bin64Exact (hi.toNat / 2 ^ 6 * 2 ^ 27 + lo.toNat / 2 ^ 5) 53) .empty) := by
  rw [assemble, assemblePair, responseOf_coreTurn_scalar rfl, ruleOf_makeDoubleW32x2, toNat_setWidth_mod,
    toNat_setWidth_mod]

theorem responseOf_makeFloatW32 (w : Word32) :
    responseOf (coreTurn (s.hold (assemble (.makeFloatW32 w)))) =
      some (.ok (0#32 ++ bin32Exact (w.toNat / 2 ^ 8) 24) .empty) := by
  rw [assemble, assembleWord, responseOf_coreTurn_scalar rfl, ruleOf_makeFloatW32, toNat_setWidth_mod]

end Line

/-! ### The values of the results (R173) -/

section Value
variable {m : Nat}

theorem f64Value_bin64Exact_53 (hm : m < 2 ^ 53) : f64Value (bin64Exact m 53) = some ((m : ℚ) / 2 ^ 53) :=
  (bin64ExactHasExactValue m 53 hm (by decide) (by decide)).1

theorem f32Value_bin32Exact_24 (hm : m < 2 ^ 24) : f32Value (bin32Exact m 24) = some ((m : ℚ) / 2 ^ 24) :=
  (bin32ExactHasExactValue m 24 hm (by decide) (by decide)).1

/-- A numerator of k bits over 2^k is at least 0 and below 1. -/
theorem div_two_pow_mem_unitInterval {k : Nat} (hm : m < 2 ^ k) : 0 ≤ (m : ℚ) / 2 ^ k ∧ (m : ℚ) / 2 ^ k < 1 := by
  have hcast : (m : ℚ) < 2 ^ k := mod_cast hm
  exact ⟨by positivity, (div_lt_one (by positivity)).2 hcast⟩

/-! ### The pattern of +0.0 (R174) -/

/-- A nonzero m has a nonzero exponent field. -/
theorem bin64Exact_eq_zero_iff {k : Nat} (hm : m < 2 ^ 53) (hk : k ≤ 1022) : bin64Exact m k = 0#64 ↔ m = 0 := by
  refine ⟨fun hzero => ?_, fun h0 => by rw [h0, bin64Exact_zero]⟩
  by_contra h0
  have hfields := bin64Exact_toNat h0 hm hk
  rw [hzero, BitVec.toNat_ofNat] at hfields
  omega

theorem bin32Exact_eq_zero_iff {k : Nat} (hm : m < 2 ^ 24) (hk : k ≤ 126) : bin32Exact m k = 0#32 ↔ m = 0 := by
  refine ⟨fun hzero => ?_, fun h0 => by rw [h0, bin32Exact_zero]⟩
  by_contra h0
  have hfields := bin32Exact_toNat h0 hm hk
  rw [hzero, BitVec.toNat_ofNat] at hfields
  omega

end Value

/-- A zero-extended Word32 is 0 exactly when the word is. -/
theorem zero_append_eq_zero_iff (f : Word32) : (0#32 ++ f : Word64) = 0#64 ↔ f = 0#32 := by
  rw [← resWord32_eq_append, resWord32, BitVec.toNat_eq, BitVec.toNat_eq, BitVec.toNat_setWidth_of_le (by decide)]
  exact Iff.rfl

/-- Two scalar responses are the same exactly when their RES are. -/
theorem some_ok_scalar_inj {x y : Word64} :
    some (Response.ok x .empty) = some (Response.ok y .empty) ↔ x = y := by
  simp only [Option.some.injEq, Response.ok.injEq, and_true]

/-! ### The obligations -/

/-- Settles O26: each result's value is its kept bits over 2^53 or 2^24 by O20 and O21, and every number of that many
bits is the kept bits of some operand. -/
theorem halfOpenResultsAreUnitInterval : Obligations.HalfOpenResultsAreUnitInterval := by
  refine fun s _ => ⟨fun a b => ?_, fun a b => ?_, fun a b => ?_, fun m hm => ⟨?_, ?_⟩, fun m hm => ?_⟩
  · have hm : a.toNat / 2 ^ 11 < 2 ^ 53 := by omega
    refine ⟨_, _, hm, ?_, f64Value_bin64Exact_53 hm, div_two_pow_mem_unitInterval hm⟩
    rw [responseOf_coreTurn_scalar rfl, ruleOf_makeDoubleW64]
  · have hm : a.toNat % 2 ^ 32 / 2 ^ 6 * 2 ^ 27 + b.toNat % 2 ^ 32 / 2 ^ 5 < 2 ^ 53 := by omega
    refine ⟨_, _, hm, ?_, f64Value_bin64Exact_53 hm, div_two_pow_mem_unitInterval hm⟩
    rw [responseOf_coreTurn_scalar rfl, ruleOf_makeDoubleW32x2]
  · have hm : a.toNat % 2 ^ 32 / 2 ^ 8 < 2 ^ 24 := by omega
    refine ⟨_, _, hm, ?_, f32Value_bin32Exact_24 hm, div_two_pow_mem_unitInterval hm⟩
    rw [responseOf_coreTurn_scalar rfl, ruleOf_makeFloatW32]
  · have hkept : (BitVec.ofNat 64 (m * 2 ^ 11)).toNat / 2 ^ 11 = m := by
      rw [BitVec.toNat_ofNat]
      omega
    refine ⟨BitVec.ofNat 64 (m * 2 ^ 11), bin64Exact m 53, ?_, f64Value_bin64Exact_53 hm⟩
    rw [responseOf_makeDoubleW64, hkept]
  · have hkept : (BitVec.ofNat 32 (m / 2 ^ 27 * 2 ^ 6)).toNat / 2 ^ 6 * 2 ^ 27 +
        (BitVec.ofNat 32 (m % 2 ^ 27 * 2 ^ 5)).toNat / 2 ^ 5 = m := by
      rw [BitVec.toNat_ofNat, BitVec.toNat_ofNat]
      omega
    refine ⟨BitVec.ofNat 32 (m / 2 ^ 27 * 2 ^ 6), BitVec.ofNat 32 (m % 2 ^ 27 * 2 ^ 5), bin64Exact m 53, ?_,
      f64Value_bin64Exact_53 hm⟩
    rw [responseOf_makeDoubleW32x2, hkept]
  · have hkept : (BitVec.ofNat 32 (m * 2 ^ 8)).toNat / 2 ^ 8 = m := by
      rw [BitVec.toNat_ofNat]
      omega
    refine ⟨BitVec.ofNat 32 (m * 2 ^ 8), bin32Exact m 24, ?_, f32Value_bin32Exact_24 hm⟩
    rw [responseOf_makeFloatW32, hkept]

/-- Settles O27: the answer is +0.0 exactly when the kept bits are 0, which bounds the operand by its dropped bits. -/
theorem halfOpenZeroSet : Obligations.HalfOpenZeroSet := by
  refine fun s _ => ⟨fun v => ?_, fun hi lo => ?_, fun v => ?_⟩
  · rw [responseOf_makeDoubleW64, some_ok_scalar_inj, bin64Exact_eq_zero_iff (by omega) (by decide)]
    omega
  · rw [responseOf_makeDoubleW32x2, some_ok_scalar_inj, bin64Exact_eq_zero_iff (by omega) (by decide)]
    omega
  · rw [responseOf_makeFloatW32, some_ok_scalar_inj, zero_append_eq_zero_iff,
      bin32Exact_eq_zero_iff (by omega) (by decide)]
    omega

/-- Settles O23: the command is admitted, and its rule drops the low 11 bits of A. -/
theorem makeDoubleW64ScalesTop53Bits : Obligations.MakeDoubleW64ScalesTop53Bits := by
  refine ⟨by decide, fun s c ⟨hc, _⟩ hlen => ?_⟩
  rw [exec_scalar rfl hc hlen, ruleOf_makeDoubleW64, State.respond]

/-- Settles O24: the command is admitted, and its rule puts the kept bits of A32 above those of B32. -/
theorem makeDoubleW32x2ScalesTop26And27Bits : Obligations.MakeDoubleW32x2ScalesTop26And27Bits := by
  refine ⟨by decide, fun s c ⟨hc, _⟩ hlen => ?_⟩
  rw [exec_scalar rfl hc hlen, ruleOf_makeDoubleW32x2, State.respond]

/-- Settles O25: the command is admitted, and its rule drops the low 8 bits of A32. -/
theorem makeFloatW32ScalesTop24Bits : Obligations.MakeFloatW32ScalesTop24Bits := by
  refine ⟨by decide, fun s c ⟨hc, _⟩ hlen => ?_⟩
  rw [exec_scalar rfl hc hlen, ruleOf_makeFloatW32, State.respond]

end Sys2Proof.Machine
end

section
/-! PROOFS. Sub-unit 5, ieee754_open_unit_float_constructor (45_ieee754_open_unit_float_constructor.md R190 to R195). -/

namespace Sys2Proof.Machine

/-! ### The forced lowest bit (R190) -/

/-- Forcing the lowest bit keeps the bits above it, so the result is odd and no wider. -/
theorem or_one_eq (n : Nat) : n ||| 1 = 2 * (n / 2) + 1 := by
  have hhigh : (n ||| 1) / 2 = n / 2 := by rw [Nat.or_div_two, Nat.or_zero]
  have hlow : (n ||| 1) % 2 = 1 := by rw [Nat.or_mod_two_eq_one]; exact .inr rfl
  omega

/-! ### X of R190: the exponent field of 1.0 with the fraction f -/

section Pattern
variable (v : Word64)

@[simp] theorem toNat_openFraction : (openFraction v).toNat = v.toNat / 2 ^ 12 ||| 1 := by
  rw [openFraction, BitVec.toNat_or, BitVec.toNat_ushiftRight, Nat.shiftRight_eq_div_pow]
  rfl

/-- f fits the fraction field. -/
theorem openFraction_lt : v.toNat / 2 ^ 12 ||| 1 < 2 ^ 52 := by
  rw [or_one_eq]
  omega

/-- The fraction stays below the exponent field, so the OR adds the two. -/
@[simp] theorem toNat_openPattern : (openPattern v).toNat = 1023 * 2 ^ 52 + (v.toNat / 2 ^ 12 ||| 1) := by
  have hone : f64One.toNat = 1023 <<< 52 := rfl
  rw [openPattern, BitVec.toNat_or, toNat_openFraction, hone, ← Nat.shiftLeft_add_eq_or_of_lt (openFraction_lt v),
    Nat.shiftLeft_eq]

/-- X has sign 0 and the exponent field of 1.0, so it lies in [1, 2). -/
theorem exponent_openPattern : (openPattern v).extractLsb' 52 12 = 0x3FF#12 := by
  have hlt := openFraction_lt v
  apply BitVec.eq_of_toNat_eq
  rw [BitVec.extractLsb'_toNat, Nat.shiftRight_eq_div_pow, toNat_openPattern, BitVec.toNat_ofNat]
  omega

theorem fraction_openPattern : ((openPattern v).extractLsb' 0 52).toNat = v.toNat / 2 ^ 12 ||| 1 := by
  have hlt := openFraction_lt v
  rw [BitVec.extractLsb'_toNat, Nat.shiftRight_zero, toNat_openPattern]
  omega

/-- The two forms R190 calls equivalent: X − 1.0 and Bin64Exact(f, 52). -/
theorem f64SubOne_openPattern : f64SubOne (openPattern v) = bin64Exact (v.toNat / 2 ^ 12 ||| 1) 52 := by
  rw [f64SubOne, fraction_openPattern]

end Pattern

/-! ### The rules in terms of A and B themselves, and the core's turn (R190, R191) -/

section Rule
variable (c : Command)

theorem ruleOf_makeDoubleOpenW64 :
    ruleOf .makeDoubleOpenW64 c = .ok (bin64Exact (c.a.toNat / 2 ^ 12 ||| 1) 52) .empty := by
  rw [ruleOf, f64SubOne_openPattern, Command.opA]

theorem ruleOf_makeDoubleOpenW32x2 :
    ruleOf .makeDoubleOpenW32x2 c =
      .ok (bin64Exact ((c.a.toNat % 2 ^ 32 * 2 ^ 32 + c.b.toNat % 2 ^ 32) / 2 ^ 12 ||| 1) 52) .empty := by
  rw [ruleOf, f64SubOne_openPattern, toNat_joinHalves, toNat_opA32, toNat_opB32]

end Rule

section Turn
variable (s : State)

theorem responseOf_makeDoubleOpenW64 (a b : Word64) :
    responseOf (coreTurn (s.hold ⟨encode .makeDoubleOpenW64, a, b, .empty⟩)) =
      some (.ok (bin64Exact (a.toNat / 2 ^ 12 ||| 1) 52) .empty) := by
  rw [responseOf_coreTurn_scalar rfl, ruleOf_makeDoubleOpenW64]

/-- The two-word command answers as the one-word command does on the joined low halves (R191). -/
theorem responseOf_makeDoubleOpenW32x2 (a b : Word64) :
    responseOf (coreTurn (s.hold ⟨encode .makeDoubleOpenW32x2, a, b, .empty⟩)) =
      responseOf (coreTurn (s.hold (assemble (.makeDoubleOpenW64 (joinHalves (loHalf a) (loHalf b)))))) := by
  rw [assemble, assembleWord, responseOf_coreTurn_scalar rfl, responseOf_coreTurn_scalar rfl]
  rfl

/-- On a two-word line the low halves are the words themselves (R73). -/
theorem responseOf_assemble_makeDoubleOpenW32x2 (hi lo : Word32) :
    responseOf (coreTurn (s.hold (assemble (.makeDoubleOpenW32x2 hi lo)))) =
      responseOf (coreTurn (s.hold (assemble (.makeDoubleOpenW64 (joinHalves hi lo))))) := by
  have hlow : ∀ w : Word32, loHalf (w.setWidth 64) = w := loHalf_resWord32
  have hjoin := responseOf_makeDoubleOpenW32x2 s (hi.setWidth 64) (lo.setWidth 64)
  rwa [hlow, hlow] at hjoin

end Turn

/-! ### The values of the results (R194, R195) -/

section Value
variable {f : Nat}

theorem f64Value_bin64Exact_52 (hf : f < 2 ^ 52) : f64Value (bin64Exact f 52) = some ((f : ℚ) / 2 ^ 52) :=
  (bin64ExactHasExactValue f 52 (by omega) (by decide) (by decide)).1

/-- An odd numerator is not 0, so the value is above 0 as well. -/
theorem odd_div_two_pow_mem_openInterval {k : Nat} (hodd : f % 2 = 1) (hf : f < 2 ^ k) :
    0 < (f : ℚ) / 2 ^ k ∧ (f : ℚ) / 2 ^ k < 1 := by
  have hpos : (0 : ℚ) < f := mod_cast (show 0 < f by omega)
  exact ⟨by positivity, (div_two_pow_mem_unitInterval hf).2⟩

/-- `makeDoubleOpen.w64` answers an odd f over 2^52, whatever stands in A and B. -/
theorem makeDoubleOpenW64_mem_openInterval (s : State) (a b : Word64) :
    ∃ (res : Word64) (f : Nat), f % 2 = 1 ∧ f < 2 ^ 52 ∧
      responseOf (coreTurn (s.hold ⟨encode .makeDoubleOpenW64, a, b, .empty⟩)) = some (.ok res .empty) ∧
      f64Value res = some ((f : ℚ) / 2 ^ 52) ∧ 0 < (f : ℚ) / 2 ^ 52 ∧ (f : ℚ) / 2 ^ 52 < 1 := by
  have hodd : (a.toNat / 2 ^ 12 ||| 1) % 2 = 1 := by
    rw [or_one_eq]
    omega
  have hlt := openFraction_lt a
  exact ⟨_, _, hodd, hlt, responseOf_makeDoubleOpenW64 s a b, f64Value_bin64Exact_52 hlt,
    odd_div_two_pow_mem_openInterval hodd hlt⟩

/-- The word with f in its top 52 bits gets f over 2^52: an odd f has its lowest bit already. -/
theorem responseOf_makeDoubleOpenW64_shifted (s : State) (hodd : f % 2 = 1) (hf : f < 2 ^ 52) :
    responseOf (coreTurn (s.hold (assemble (.makeDoubleOpenW64 (BitVec.ofNat 64 (f * 2 ^ 12)))))) =
      some (.ok (bin64Exact f 52) .empty) := by
  have hkept : (BitVec.ofNat 64 (f * 2 ^ 12)).toNat / 2 ^ 12 ||| 1 = f := by
    rw [or_one_eq, BitVec.toNat_ofNat]
    omega
  rw [assemble, assembleWord, responseOf_makeDoubleOpenW64, hkept]

end Value

/-! ### The obligations -/

/-- Settles O28: the command is admitted, X lies in [1, 2), where the subtraction of 1.0 is exact by O22, and the
difference is Bin64Exact of X's fraction. -/
theorem makeDoubleOpenW64SubtractsOne : Obligations.MakeDoubleOpenW64SubtractsOne := by
  refine ⟨by decide, fun s c ⟨hc, _⟩ hlen => ⟨f64SubOne (openPattern c.a), ?_, ?_, f64SubOne_openPattern c.a⟩⟩
  · rw [exec_scalar rfl hc hlen, ruleOf, Command.opA, State.respond]
  · exact f64SubOneIsExactDifference (openPattern c.a) (exponent_openPattern c.a)

/-- Settles O29: the command is admitted, and its rule is the open construction on the word `makeLong.hl` answers. -/
theorem makeDoubleOpenW32x2IsOpenOfJoin : Obligations.MakeDoubleOpenW32x2IsOpenOfJoin := by
  refine ⟨by decide, fun s c ⟨hc, _⟩ hlen => ?_, fun s a b _ => ⟨joinHalves (loHalf a) (loHalf b), ?_, ?_⟩⟩
  · rw [exec_scalar rfl hc hlen, ruleOf_makeDoubleOpenW32x2, State.respond]
  · rw [responseOf_coreTurn_scalar rfl, ruleOf_makeLongHl_loHalves]
  · exact responseOf_makeDoubleOpenW32x2 s a b

/-- Settles O30: the forced bit makes f odd, so its value is above 0; an odd f is reached by the word with f in its top
52 bits, and by that word's two halves. The two-word command is the one-word command on the joined word. -/
theorem openResultsAreOpenInterval : Obligations.OpenResultsAreOpenInterval := by
  refine fun s _ => ⟨makeDoubleOpenW64_mem_openInterval s, fun a b => ?_, fun f hodd hf => ⟨?_, ?_⟩⟩
  · rw [responseOf_makeDoubleOpenW32x2]
    exact makeDoubleOpenW64_mem_openInterval s (joinHalves (loHalf a) (loHalf b)) 0#64
  · exact ⟨_, _, responseOf_makeDoubleOpenW64_shifted s hodd hf, f64Value_bin64Exact_52 hf⟩
  · refine ⟨hiHalf (BitVec.ofNat 64 (f * 2 ^ 12)), loHalf (BitVec.ofNat 64 (f * 2 ^ 12)), _, ?_,
      f64Value_bin64Exact_52 hf⟩
    rw [responseOf_assemble_makeDoubleOpenW32x2, joinHalves_halves, responseOf_makeDoubleOpenW64_shifted s hodd hf]

end Sys2Proof.Machine
end

section
/-! PROOFS. The one error and the copies of the block (60_exceptions.md R210, R211, R221). -/

namespace Sys2Proof.Machine

/-! ### The commands that answer STATUS 1 (R211) -/

section Status
variable {i : Instr} {c : Command} {n : Nat}

/-- STATUS has two values (R210). -/
theorem Response.status_eq_zero_or_one (r : Response) : r.status = 0#8 ∨ r.status = 1#8 := by
  cases r with
  | ok res out => exact .inl (Response.status_ok res out)
  | err kind => exact .inr (Response.status_err kind)

/-- The four ways R211 names to an INVALID_LENGTH, by the command word's OPC and LEN. -/
def WrongParseLength (opc : BitVec 8) (len : Nat) : Prop :=
  opc = 0x30#8 ∧ len ≠ 4 ∨ opc = 0x31#8 ∧ len ≠ 8 ∨ opc = 0x32#8 ∧ len % 4 ≠ 0 ∨ opc = 0x33#8 ∧ len % 8 ≠ 0

theorem status_ruleOf_makeIntBytes (h : c.input.byteList.length = n) :
    (ruleOf (.makeIntBytes n) c).status = 1#8 ↔ n ≠ 4 := by
  by_cases h4 : n = 4
  · obtain ⟨w, hw⟩ := parseWord32_isSome (h.trans h4)
    simp [ruleOf_makeIntBytes_of_some hw, h4]
  · simp [ruleOf_makeIntBytes_of_length_ne (h ▸ h4), h4]

theorem status_ruleOf_makeLongBytes (h : c.input.byteList.length = n) :
    (ruleOf (.makeLongBytes n) c).status = 1#8 ↔ n ≠ 8 := by
  by_cases h8 : n = 8
  · obtain ⟨w, hw⟩ := parseWord64_isSome (h.trans h8)
    simp [ruleOf_makeLongBytes_of_some hw, h8]
  · simp [ruleOf_makeLongBytes_of_length_ne (h ▸ h8), h8]

theorem status_ruleOf_makeIntArray : (ruleOf (.makeIntArray n) c).status = 1#8 ↔ n % 4 ≠ 0 := by
  by_cases h4 : n % 4 = 0
  · simp [ruleOf_makeIntArray_of_dvd h4, h4]
  · simp [ruleOf_makeIntArray_of_not_dvd h4, h4]

theorem status_ruleOf_makeLongArray : (ruleOf (.makeLongArray n) c).status = 1#8 ↔ n % 8 ≠ 0 := by
  by_cases h8 : n % 8 = 0
  · simp [ruleOf_makeLongArray_of_dvd h8, h8]
  · simp [ruleOf_makeLongArray_of_not_dvd h8, h8]

/-- On an agreeing payload, whose length is LEN, the rules of the four parses raise the error exactly on a wrong length,
and no other rule raises it. -/
theorem status_ruleOf_eq_one_iff (hm : payloadMatches i c.input = true) :
    (ruleOf i c).status = 1#8 ↔ WrongParseLength i.opc i.len := by
  cases i
  case makeIntBytes n =>
    simp [status_ruleOf_makeIntBytes ((Payload.isBytes_iff c.input n).1 hm).2, WrongParseLength, Instr.opc, Instr.len]
  case makeLongBytes n =>
    simp [status_ruleOf_makeLongBytes ((Payload.isBytes_iff c.input n).1 hm).2, WrongParseLength, Instr.opc, Instr.len]
  case makeIntArray n => simp [status_ruleOf_makeIntArray, WrongParseLength, Instr.opc, Instr.len]
  case makeLongArray n => simp [status_ruleOf_makeLongArray, WrongParseLength, Instr.opc, Instr.len]
  all_goals simp [ruleOf, WrongParseLength, Instr.opc]

end Status

/-! ### A step of one copy (R221) -/

/-- A step of copy `k` applies the step of a core at place `k` of the list of copies, and nowhere else. -/
theorem stepCore_eq_modify {next : State → State} (hnext : ∀ s, step s = .next (next s)) (p : Platform)
    (k : Nat) : p.stepCore k = .next { p with cores := p.cores.modify k next } := by
  rw [Platform.stepCore, List.modify_eq_set_getElem?]
  cases p.cores[k]? with
  | none => rfl
  | some s => simp [hnext s]

/-! ### The obligations -/

/-- Settles O32: the command gets the response of its rule, and OPC and LEN are the decoded instruction's. -/
theorem invalidLengthExactlyOnWrongParseLength : Obligations.InvalidLengthExactlyOnWrongParseLength := by
  intro s c i ⟨hc, _⟩ hd hm ho
  obtain ⟨-, hopc, hlen⟩ := decode_op_cases hd
  refine ⟨ruleOf i c, ?_, ?_, (ruleOf i c).status_eq_zero_or_one.resolve_right⟩
  · rw [coreTurn_of_decode hc hd, exec_admitted hc hm ((overMaxBytes_eq_false i s.maxBytes).1 ho), State.respond]
  · rw [hopc, ← hlen]
    exact status_ruleOf_eq_one_iff hm

/-- Settles O56: a step of a core always answers, so a step of copy `k` changes place `k` of the list alone, and changes
at two places commute. -/
theorem copiesDoNotObserveEachOther : Obligations.CopiesDoNotObserveEachOther := by
  choose next hnext using stepAnswersNextEverywhere
  simp only [Obligations.CopiesDoNotObserveEachOther, stepCore_eq_modify hnext, Host.Outcome.next.injEq]
  rintro p _ k rfl
  refine ⟨List.length_modify .., fun j hj => List.getElem?_modify_ne _ _ hj.symm, fun s hs => ⟨next s, hnext s, ?_⟩, ?_⟩
  · rw [List.getElem?_modify_eq, hs, Option.map_eq_map, Option.map_some]
  · rintro j _ _ _ hj rfl rfl rfl
    rw [List.modify_modify_ne next next p.cores hj.symm]

end Sys2Proof.Machine
end

section
/-! PROOFS. The end of a run (70_reset_and_hazards.md R236) in which a Reset drops a command. -/

namespace Sys2Proof.Machine

/-- A Reset right after an Issue drops the command (R27, R30), and the host still awaits its response (log 22). -/
theorem run_issue_reset {s : State} {c : Command} {rest : List Move} (k : Nat) (hp : s.phase = .idle)
    (hs : s.schedule = .issue c :: .reset :: rest) :
    Sys2Proof.core.run (k + 2) s =
      Sys2Proof.core.run k { s with schedule := rest, phase := .idle, awaiting := true } := by
  rw [run_next (k + 1) (step_issue_idle hs hp), run_next k (step_reset rfl)]
  rfl

/-- Settles O58: a dropped command stays awaited, which R236 denies of an ended run; issued again and taken, it no
longer is. -/
theorem runWithDroppedLastCommandHasNotEnded : Obligations.RunWithDroppedLastCommandHasNotEnded := by
  intro s c hp hsafe
  constructor
  · intro hs
    exact ⟨_, run_issue_reset 0 hp hs, rfl, rfl, hsafe, rfl, by simp [State.Ended]⟩
  · intro hs r hans
    have hdropped := run_issue_reset 3 hp hs
    have htaken := hdropped.trans (run_issue_take (k := 0) rfl rfl (hans _ rfl ⟨rfl, hsafe⟩))
    exact ⟨_, htaken, rfl, rfl, rfl, rfl, hsafe⟩

end Sys2Proof.Machine
end
